-- ==== Sys2Proof/Word.lean ====
section
/-! DEFINITION. The widths of the block (00_scope.md R7, R8) and the two kinds of word an instruction is read from
(30_encoding.md R90). -/

namespace Sys2Proof

/-- A byte is 8 bits (00_scope.md R8). -/
abbrev Byte := BitVec 8

/-- A 16-bit register of the block (10_state.md R27). -/
abbrev Half := BitVec 16

/-- A window offset, 12 bits (20_memory.md R62). -/
abbrev Offset := BitVec 12

/-- One host transaction: `WE` = bit 20, `OFF` = bits 19..8, `DATA` = bits 7..0 (30_encoding.md R90, BUS21). -/
abbrev BusWord := BitVec 21

/-- The word an instruction is read from: the byte written to `CMD`, or one host transaction (30_encoding.md R90).
The third format of R90, the frame on the wire, carries data and no instruction. -/
inductive CodeWord where
  | cmd8 (op : Byte)
  | bus21 (w : BusWord)
  deriving DecidableEq, Repr

end Sys2Proof
end

