-- ==== Sys2Proof/Syntax.lean ====
section
/-! DEFINITION. The instructions: one constructor per row of spec/opcode_table.json. -/

namespace Sys2Proof

/-- The nine rows of the opcode table. A CMD8 operation has no operand field: "every operand of an operation is a
register or buffer of the block, fixed per operation" (30_encoding.md R90). RD8's bits 7..0 are "ignored" (R90), so `rd8`
has no data. The CMD8 values 0x07..0xFF are no instruction (30_encoding.md R101). -/
inductive Instr where
  | nop
  | encode
  | encodeChannels
  | decodeFrame
  | decodeAttitude
  | decodeChannels
  | checkReady
  | wr8 (off : Offset) (data : Byte)
  | rd8 (off : Offset)
  deriving DecidableEq, Repr

end Sys2Proof
end

