-- ==== Sys2Proof/WellFormed.lean ====
section
/-! DEFINITION. Which code words are written as the spec shows them, and which instructions are well-formed. -/

namespace Sys2Proof

/-- A code word as the spec writes it: a CMD8 byte that names an operation (30_encoding.md R91, R101), and a read
transaction whose ignored bits 7..0 are "shown as 0" (30_encoding.md R90). A read whose bits 7..0 are not 0 is still a
read; it is only not the spelling the encoder writes. -/
def CodeWord.wf : CodeWord → Bool
  | .cmd8 op => decide (op.toNat ≤ 6)
  | .bus21 w => w.getLsbD 20 || decide (w.extractLsb' 0 8 = 0#8)

/-- Every term of `Instr` is well-formed: OFF has its 12 bits and DATA its 8 by type (20_memory.md R62), every offset
and every byte value is legal (20_memory.md R71, R74), and a CMD8 operation has no field at all (30_encoding.md R90).
One arm per constructor, so that a later constructor says for itself what it checks. -/
def Instr.wf : Instr → Bool
  | .nop => true
  | .encode => true
  | .encodeChannels => true
  | .decodeFrame => true
  | .decodeAttitude => true
  | .decodeChannels => true
  | .checkReady => true
  | .wr8 _ _ => true
  | .rd8 _ => true

end Sys2Proof
end

