-- ==== Sys2Proof/Decode.lean ====
section
/-! DEFINITION. The decoder, total on every word and rejecting by name, and after it the encoder, both written from the
encoding tables of 30_encoding.md (R90, R91). -/

namespace Sys2Proof

/-- Why a word is no instruction. -/
inductive Reject where
  /-- A CMD8 byte of 0x07..0xFF (30_encoding.md R101). -/
  | illegalOp (op : Byte)
  /-- A word of a width that is neither CMD8's nor BUS21's (30_encoding.md R90, R104). -/
  | noSuchWidth (nbits : Nat)
  /-- A number that does not fit its format's bits (30_encoding.md R90). -/
  | tooWide (nbits w : Nat)
  deriving DecidableEq, Repr

/-- The CMD8 opcode map (30_encoding.md R91); all 8 bits are compared. -/
def decodeCmd8 (op : Byte) : Except Reject Instr :=
  match op.toNat with
  | 0x00 => .ok .nop
  | 0x01 => .ok .encode
  | 0x02 => .ok .encodeChannels
  | 0x03 => .ok .decodeFrame
  | 0x04 => .ok .decodeAttitude
  | 0x05 => .ok .decodeChannels
  | 0x06 => .ok .checkReady
  | _ => .error (.illegalOp op)

/-- A host transaction: `WE` selects write or read; a read ignores bits 7..0 (30_encoding.md R90). Every one of the
2^21 words is a transaction. -/
def decodeBus21 (w : BusWord) : Instr :=
  if w.getLsbD 20 then .wr8 (w.extractLsb' 8 12) (w.extractLsb' 0 8)
  else .rd8 (w.extractLsb' 8 12)

/-- The decoder on both formats. -/
def decode : CodeWord → Except Reject Instr
  | .cmd8 op => decodeCmd8 op
  | .bus21 w => .ok (decodeBus21 w)

/-- The code word whose bits, numbered as spec/opcode_table.json numbers them, are `w`: 8 bits are a CMD8 byte, 21 bits
(24 in whole bytes, the upper three then 0) a BUS21 word (log 9). -/
def tableWord (nbits w : Nat) : Except Reject CodeWord :=
  if nbits = 8 then
    if w < 2 ^ 8 then .ok (.cmd8 (BitVec.ofNat 8 w)) else .error (.tooWide nbits w)
  else if nbits = 21 ∨ nbits = 24 then
    if w < 2 ^ 21 then .ok (.bus21 (BitVec.ofNat 21 w)) else .error (.tooWide nbits w)
  else .error (.noSuchWidth nbits)

/-- What the decoder reads from a word of the opcode table. -/
def decodeTableWord (nbits w : Nat) : Option Instr :=
  match tableWord nbits w with
  | .error _ => none
  | .ok c =>
    match decode c with
    | .ok i => some i
    | .error _ => none

/-- The write transaction `{1, OFF[11:0], V[7:0]}` (30_encoding.md R105). -/
def encodeWr8 (off : Offset) (data : Byte) : BusWord := 1#1 ++ off ++ data

/-- The read transaction `{0, OFF[11:0], 0x00}` (30_encoding.md R105). -/
def encodeRd8 (off : Offset) : BusWord := 0#1 ++ off ++ 0#8

/-- The encoder (30_encoding.md R91, R105). -/
def encode : Instr → CodeWord
  | .nop => .cmd8 0x00#8
  | .encode => .cmd8 0x01#8
  | .encodeChannels => .cmd8 0x02#8
  | .decodeFrame => .cmd8 0x03#8
  | .decodeAttitude => .cmd8 0x04#8
  | .decodeChannels => .cmd8 0x05#8
  | .checkReady => .cmd8 0x06#8
  | .wr8 off data => .bus21 (encodeWr8 off data)
  | .rd8 off => .bus21 (encodeRd8 off)

end Sys2Proof
end

