-- ==== Sys2Proof/Config.lean ====
section
/-! DEFINITION. What the spec leaves open: the OPEN parameter BASE and the power-on contents of the buffers. (The other OPEN
parameter, LATENCY, is the placing of the codec's turns in `State.turns`: log 1, 2.) -/

namespace Sys2Proof.Config

/-- Which 4096-byte page of the host's address space the window stands in. It has no body: no proof can see it
(00_scope.md R7 `BASE`; log 10). -/
opaque basePage : Nat

/-- `BASE`, the host address of offset 0x000: "any address aligned to 4096 bytes" (00_scope.md R7; log 10). -/
def base : Nat := 4096 * basePage

/-- FREE VALUE: the byte the buffer cell at a window offset holds after power-on. "A model takes the four buffers'
post-reset contents as a free input of the reset (quantified over by every claim), never as zero" (10_state.md R47;
70_reset_and_hazards.md R201; log 4). It has no body. -/
opaque powerOnByte : Nat → Byte

end Sys2Proof.Config
end

