-- ==== Sys2Proof/Machine/State.lean ====
section
/-! DEFINITION. The state of the block (10_state.md R20), the model's own fields beside it, and the state after power-on
reset (70_reset_and_hazards.md R200, R201). -/

namespace Sys2Proof.Machine

/-- The four buffers, as cells (window offset, byte) in rising order of offset (20_memory.md R60). A listed offset has
been written since power-on; an unlisted one still holds its power-on byte (10_state.md R47; log 4). -/
abbrev Memory := List Host.Cell

/-- One event of the total order of 20_memory.md R75, as the environment presents it (log 1). -/
inductive Turn where
  /-- One host transaction (20_memory.md R62), of whichever host (log 11). -/
  | host (w : BusWord)
  /-- The codec is given its turn; it acts if an operation is pending (42_control.md R170; log 3). -/
  | codec
  /-- The environment resets the block (70_reset_and_hazards.md R202). -/
  | reset
  deriving DecidableEq, Repr

/-- Why the machine stops. No constructor: the spec has no trap (60_exceptions.md R180), every operation is total
(42_control.md R170) and no access is refused (60_exceptions.md R189), so nothing raises a fault (log 17). -/
inductive Fault where
  deriving DecidableEq, Repr

/-- Why the model gives no meaning. -/
inductive Refusal where
  /-- An arm of `exec` whose instruction has no meaning yet; no arm raises it now. Safe: the machine stops where the
  hardware goes on. -/
  | notModelled (mnemonic : String)
  deriving DecidableEq, Repr

/-- Everything the spec gives the block, under the names of 10_state.md R20; the last two fields are the model's own. -/
structure State where
  /-- TXP, RXB, TXF and RXP (R23 to R26), at their window offsets. -/
  mem : Memory
  /-- CMD (R28). -/
  cmd : Byte
  /-- STATUS.BUSY (R29). -/
  busy : Bool
  /-- STATUS.OVERRUN (R29). -/
  overrun : Bool
  /-- RESULT (R30). -/
  result : Byte
  /-- FLAGS[5:0] (R31). -/
  flags : BitVec 6
  /-- CODE (R32). -/
  code : Half
  /-- LEN (R33). -/
  len : Byte
  /-- CH_COUNT (R34). -/
  chCount : Byte
  /-- RXCNT (R35). -/
  rxcnt : Half
  /-- TXCNT (R36). -/
  txcnt : Half
  /-- RX_CODE (R37). -/
  rxCode : Byte
  /-- RX_LEN (R38). -/
  rxLen : Byte
  /-- RX_CHK (R39). -/
  rxChk : Byte
  /-- CALC_CHK (R40). -/
  calcChk : Byte
  /-- ATT_ROLL (R41). -/
  attRoll : Half
  /-- ATT_PITCH (R41). -/
  attPitch : Half
  /-- ATT_YAW (R41). -/
  attYaw : Half
  /-- VALID.ATT_VALID (R42). -/
  attValid : Bool
  /-- VALID.CH_VALID (R42). -/
  chValid : Bool
  /-- CH_IN[0..7] (R43). -/
  chIn : Vector Half 8
  /-- CH_OUT[0..7] (R44). -/
  chOut : Vector Half 8
  /-- The operation issued and not yet performed (R22). -/
  pending : Option Byte
  /-- MODEL'S OWN: the events still to come, in the total order of 20_memory.md R75 (log 1, 2). -/
  turns : List Turn
  /-- MODEL'S OWN: what the host's reads have returned, oldest first (20_memory.md R63; log 5). -/
  replies : List Byte
  deriving DecidableEq, Repr

/-- The block after power-on reset: the register values of 70_reset_and_hazards.md R200; the buffers hold their
power-on bytes (R201), so no cell is listed. No turn is placed and nothing has been read (log 5, 7). -/
def State.reset : State where
  mem := []
  cmd := 0x00#8
  busy := false
  overrun := false
  result := 0x00#8
  flags := 0#6
  code := 0x0000#16
  len := 0x00#8
  chCount := 0x08#8
  rxcnt := 0x0000#16
  txcnt := 0x0000#16
  rxCode := 0x00#8
  rxLen := 0x00#8
  rxChk := 0x00#8
  calcChk := 0x00#8
  attRoll := 0x0000#16
  attPitch := 0x0000#16
  attYaw := 0x0000#16
  attValid := false
  chValid := false
  chIn := Vector.replicate 8 0x0000#16
  chOut := Vector.replicate 8 0x0000#16
  pending := none
  turns := []
  replies := []

end Sys2Proof.Machine
end

