-- ==== Sys2Proof/Machine/Params.lean ====
section
/-! DEFINITION. The block's fixed parameters (00_scope.md R7), the message codes (R11), the frame markers (R12) and where
each buffer stands in the window (20_memory.md R60). -/

namespace Sys2Proof.Machine

/-- `WINDOW` (R7). -/
abbrev windowSize : Nat := 4096
/-- `TXP_SIZE` (R7). -/
abbrev txpSize : Nat := 256
/-- `TXF_SIZE` (R7). -/
abbrev txfSize : Nat := 261
/-- `RXB_SIZE` (R7). -/
abbrev rxbSize : Nat := 512
/-- `RXP_SIZE` (R7). -/
abbrev rxpSize : Nat := 256

/-- `MAX_V1_CODE` (R7). -/
abbrev maxV1Code : Nat := 254
/-- `NCH` (R7). -/
abbrev channelCount : Nat := 8
/-- The floor of DECODE_FRAME and the length of a frame beyond its payload: header and checksum (30_encoding.md R94,
41_decode.md R141). -/
abbrev frameOverhead : Nat := 6
/-- `ATT_FLOOR` (R7). -/
abbrev attFloor : Nat := 12
/-- `CH_FLOOR` (R7). -/
abbrev chFloor : Nat := 16
/-- The received count that holds all 16 channel bytes (41_decode.md R156). -/
abbrev chAllReceived : Nat := 21
/-- `READY_FLOOR` (R7). -/
abbrev readyFloor : Nat := 12
/-- `READY_SENTINEL` (R7). -/
abbrev readySentinel : Byte := 100#8
/-- The frame index of the 7th payload byte (30_encoding.md R99; log 12). -/
abbrev readyIndex : Nat := 11

/-- `MSG_VERSION` (R11). -/
abbrev msgVersion : Byte := 3#8
/-- `MSG_RC` (R11). -/
abbrev msgRc : Byte := 105#8
/-- `MSG_ATTITUDE` (R11). -/
abbrev msgAttitude : Byte := 108#8
/-- `MSG_SET_RC` (R11). -/
abbrev msgSetRc : Byte := 200#8

/-- The marker byte that begins every frame (R12). -/
abbrev markDollar : Byte := 0x24#8
/-- The second marker byte (R12). -/
abbrev markM : Byte := 0x4D#8
/-- The direction byte of a request (R12). -/
abbrev dirRequest : Byte := 0x3C#8
/-- The direction byte of a response (R12). -/
abbrev dirResponse : Byte := 0x3E#8

/-- Window offset of TXP[0] (20_memory.md R60). -/
abbrev txpBase : Nat := 0x000
/-- Window offset of RXB[0] (20_memory.md R60). -/
abbrev rxbBase : Nat := 0x200
/-- Window offset of TXF[0] (20_memory.md R60). -/
abbrev txfBase : Nat := 0x400
/-- Window offset of RXP[0] (20_memory.md R60). -/
abbrev rxpBase : Nat := 0x600

end Sys2Proof.Machine
end

