-- ==== Sys2Proof/Machine/Ops.lean ====
section
/-! DEFINITION. The named operations over memory and registers: the buffers' cells, the window's map, reading and
writing one byte of it, issuing and completing an operation, raising an error and resetting. -/

namespace Sys2Proof.Machine

/-! ## The buffers' cells -/

/-- The byte last written at an offset since power-on, or none. -/
def Memory.read : Memory → Nat → Option Byte
  | [], _ => none
  | (k, v) :: m, a => if k = a then some v else Memory.read m a

/-- Write one byte, keeping the offsets in rising order. What an unlisted offset reads as is no byte at all ("not
written since power-on"), so no written byte is ever left out. -/
def Memory.write : Memory → Nat → Byte → Memory
  | [], a, v => [(a, v)]
  | (k, w) :: m, a, v =>
    if a < k then (a, v) :: (k, w) :: m
    else if a = k then (a, v) :: m
    else (k, w) :: Memory.write m a v

/-- Write bytes at rising offsets. -/
def Memory.writeBytes : Memory → Nat → List Byte → Memory
  | m, _, [] => m
  | m, a, b :: bs => Memory.writeBytes (m.write a b) (a + 1) bs

/-- Whether an offset is a cell of one of the four buffers (20_memory.md R60). -/
def inBuffers (a : Nat) : Bool :=
  decide (a < txpBase + txpSize) || (decide (rxbBase ≤ a) && decide (a < rxbBase + rxbSize)) ||
    (decide (txfBase ≤ a) && decide (a < txfBase + txfSize)) || (decide (rxpBase ≤ a) && decide (a < rxpBase + rxpSize))

/-- The canonical form: offsets strictly rising, every one a buffer cell. -/
abbrev Memory.wf (m : Memory) : Prop :=
  m.Pairwise (fun p q => p.1 < q.1) ∧ ∀ c ∈ m, inBuffers c.1 = true

/-- The byte a buffer cell holds: the last one written, else the byte power-on left there (10_state.md R47; log 4). -/
def State.byteAt (s : State) (a : Nat) : Byte := (Memory.read s.mem a).getD (Config.powerOnByte a)

/-- `n` bytes at rising offsets. -/
def State.bytesAt (s : State) : Nat → Nat → List Byte
  | _, 0 => []
  | a, n + 1 => s.byteAt a :: State.bytesAt s (a + 1) n

/-- `TXP[i]` (10_state.md R23). -/
def State.txp (s : State) (i : Nat) : Byte := s.byteAt (txpBase + i)
/-- `RXB[i]` (10_state.md R24). -/
def State.rxb (s : State) (i : Nat) : Byte := s.byteAt (rxbBase + i)
/-- `TXF[i]` (10_state.md R25). -/
def State.txf (s : State) (i : Nat) : Byte := s.byteAt (txfBase + i)
/-- `RXP[i]` (10_state.md R26). -/
def State.rxp (s : State) (i : Nat) : Byte := s.byteAt (rxpBase + i)

/-- Write bytes into the buffers. -/
def putBytes (a : Nat) (bs : List Byte) (s : State) : State := { s with mem := Memory.writeBytes s.mem a bs }

/-! ## Bytes of a 16-bit register (20_memory.md R69) -/

/-- Byte `k` of a register: bits `8k+7..8k`. -/
def getByte (h : Half) (k : Nat) : Byte := h.extractLsb' (8 * k) 8

/-- Replace byte `k` (0 or 1), the other byte unchanged (20_memory.md R64). -/
def setByte (h : Half) (k : Nat) (v : Byte) : Half := if k = 0 then getByte h 1 ++ v else v ++ getByte h 0

/-- `{hi8, lo8}` (00_scope.md R10). -/
def le16 (lo hi : Byte) : Half := hi ++ lo

/-! ## The window's map (20_memory.md R60, 10_state.md R27) -/

/-- The registers of 10_state.md R27. -/
inductive Reg where
  | cmd | status | result | flags | code | len | chCount | rxcnt | txcnt
  | rxCode | rxLen | rxChk | calcChk | attRoll | attPitch | attYaw | valid
  | chIn (i : Fin 8)
  | chOut (i : Fin 8)
  deriving DecidableEq, Repr

/-- A row of the register map: the register's offset and how many bytes it has. -/
structure RegRow where
  offset : Nat
  reg : Reg
  bytes : Nat
  deriving DecidableEq, Repr

/-- The register map of 10_state.md R27: the single registers. -/
def singleRegs : List RegRow :=
  [⟨0x100, .cmd, 1⟩, ⟨0x101, .status, 1⟩, ⟨0x102, .result, 1⟩, ⟨0x103, .flags, 1⟩,
   ⟨0x104, .code, 2⟩, ⟨0x106, .len, 1⟩, ⟨0x107, .chCount, 1⟩, ⟨0x108, .rxcnt, 2⟩,
   ⟨0x10A, .txcnt, 2⟩, ⟨0x10C, .rxCode, 1⟩, ⟨0x10D, .rxLen, 1⟩, ⟨0x10E, .rxChk, 1⟩,
   ⟨0x10F, .calcChk, 1⟩, ⟨0x110, .attRoll, 2⟩, ⟨0x112, .attPitch, 2⟩, ⟨0x114, .attYaw, 2⟩,
   ⟨0x116, .valid, 1⟩]

/-- The register map of 10_state.md R27: the channel inputs. -/
def chInRegs : List RegRow :=
  [⟨0x120, .chIn 0, 2⟩, ⟨0x122, .chIn 1, 2⟩, ⟨0x124, .chIn 2, 2⟩, ⟨0x126, .chIn 3, 2⟩,
   ⟨0x128, .chIn 4, 2⟩, ⟨0x12A, .chIn 5, 2⟩, ⟨0x12C, .chIn 6, 2⟩, ⟨0x12E, .chIn 7, 2⟩]

/-- The register map of 10_state.md R27: the channel outputs. -/
def chOutRegs : List RegRow :=
  [⟨0x130, .chOut 0, 2⟩, ⟨0x132, .chOut 1, 2⟩, ⟨0x134, .chOut 2, 2⟩, ⟨0x136, .chOut 3, 2⟩,
   ⟨0x138, .chOut 4, 2⟩, ⟨0x13A, .chOut 5, 2⟩, ⟨0x13C, .chOut 6, 2⟩, ⟨0x13E, .chOut 7, 2⟩]

/-- The whole register map (10_state.md R27). -/
def regMap : List RegRow := singleRegs ++ chInRegs ++ chOutRegs

/-- Which register's which byte an offset of the register region names, if any (10_state.md R27, R45). -/
def locateReg (a : Nat) : Option (Reg × Nat) :=
  match regMap.find? (fun r => decide (r.offset ≤ a) && decide (a < r.offset + r.bytes)) with
  | some r => some (r.reg, a - r.offset)
  | none => none

/-- What stands at an offset of the window. -/
inductive Loc where
  | txp (i : Nat)
  | rxb (i : Nat)
  | txf (i : Nat)
  | rxp (i : Nat)
  /-- Byte `k` of a register. -/
  | reg (r : Reg) (k : Nat)
  | reserved
  deriving DecidableEq, Repr

/-- The map of 20_memory.md R60. -/
def locate (off : Offset) : Loc :=
  let a := off.toNat
  if a < 0x100 then .txp (a - txpBase)
  else if a < 0x200 then
    match locateReg a with
    | some (r, k) => .reg r k
    | none => .reserved
  else if a < 0x400 then .rxb (a - rxbBase)
  else if a < 0x505 then .txf (a - txfBase)
  else if a < 0x600 then .reserved
  else if a < 0x700 then .rxp (a - rxpBase)
  else .reserved

/-- The host address of an offset: `BASE + offset` (20_memory.md R60; log 10). -/
def hostAddress (off : Offset) : Nat := Config.base + off.toNat

/-- The offset a host address names, if it lies in the window (20_memory.md R60; log 10). -/
def windowOffset (addr : Nat) : Option Offset :=
  if Config.base ≤ addr ∧ addr < Config.base + windowSize then some (BitVec.ofNat 12 (addr - Config.base)) else none

/-! ## Reading and writing one byte of the window -/

/-- STATUS as the host reads it: `{000000b, OVERRUN, BUSY}` (20_memory.md R63). -/
def State.statusByte (s : State) : Byte := 0#6 ++ BitVec.ofBool s.overrun ++ BitVec.ofBool s.busy

/-- VALID as the host reads it: `{000000b, CH_VALID, ATT_VALID}` (20_memory.md R63). -/
def State.validByte (s : State) : Byte := 0#6 ++ BitVec.ofBool s.chValid ++ BitVec.ofBool s.attValid

/-- A register's value, an 8-bit one extended with zeros (20_memory.md R63). -/
def readReg (s : State) : Reg → Half
  | .cmd => s.cmd.setWidth 16
  | .status => s.statusByte.setWidth 16
  | .result => s.result.setWidth 16
  | .flags => s.flags.setWidth 16
  | .code => s.code
  | .len => s.len.setWidth 16
  | .chCount => s.chCount.setWidth 16
  | .rxcnt => s.rxcnt
  | .txcnt => s.txcnt
  | .rxCode => s.rxCode.setWidth 16
  | .rxLen => s.rxLen.setWidth 16
  | .rxChk => s.rxChk.setWidth 16
  | .calcChk => s.calcChk.setWidth 16
  | .attRoll => s.attRoll
  | .attPitch => s.attPitch
  | .attYaw => s.attYaw
  | .valid => s.validByte.setWidth 16
  | .chIn i => s.chIn[i]
  | .chOut i => s.chOut[i]

/-- `MemRead(off, 1)` (20_memory.md R63). -/
def memRead (s : State) (off : Offset) : Byte :=
  match locate off with
  | .txp i => s.txp i
  | .rxb i => s.rxb i
  | .txf i => s.txf i
  | .rxp i => s.rxp i
  | .reg r k => getByte (readReg s r) k
  | .reserved => 0x00#8

/-- `issue(v)` (20_memory.md R66). -/
def issue (v : Byte) (s : State) : State := { s with cmd := v, pending := some v, busy := true }

/-- A host write to a location that only an idle block accepts: while busy it is lost and sets OVERRUN
(20_memory.md R67), whatever value it carries. -/
def whenIdle (s accepted : State) : State := if s.busy then { s with overrun := true } else accepted

/-- A host write to STATUS: W1C of bit 1, at any time; other bits ignored (20_memory.md R64, R67). -/
def writeStatus (v : Byte) (s : State) : State := if v.getLsbD 1 then { s with overrun := false } else s

/-- A host write of byte `k` of a register (20_memory.md R64 to R67): CMD issues, STATUS clears OVERRUN, an operand
register takes the byte when idle, and a read-only register ignores it at any time. -/
def writeReg (s : State) (r : Reg) (k : Nat) (v : Byte) : State :=
  match r with
  | .cmd => whenIdle s (issue v s)
  | .status => writeStatus v s
  | .code => whenIdle s { s with code := setByte s.code k v }
  | .len => whenIdle s { s with len := v }
  | .chCount => whenIdle s { s with chCount := v }
  | .rxcnt => whenIdle s { s with rxcnt := setByte s.rxcnt k v }
  | .chIn i => whenIdle s { s with chIn := s.chIn.set i (setByte s.chIn[i] k v) }
  | .result | .flags | .txcnt | .rxCode | .rxLen | .rxChk | .calcChk => s
  | .attRoll | .attPitch | .attYaw | .valid | .chOut _ => s

/-- `MemWrite(off, 1, v)` (20_memory.md R64 to R67). -/
def memWrite (s : State) (off : Offset) (v : Byte) : State :=
  match locate off with
  | .txp i => whenIdle s (putBytes (txpBase + i) [v] s)
  | .rxb i => whenIdle s (putBytes (rxbBase + i) [v] s)
  | .txf _ => s
  | .rxp _ => s
  | .reg r k => writeReg s r k v
  | .reserved => s

/-- A value read goes back to the host (20_memory.md R63; log 5). -/
def reply (v : Byte) (s : State) : State := { s with replies := s.replies ++ [v] }

/-! ## Completing an operation, and its errors -/

/-- The values of RESULT (10_state.md R30). -/
inductive ResultCode where
  | ok
  | unsupportedVersion
  | truncated
  | invalidCount
  | illegalOp
  deriving DecidableEq, Repr

/-- The RESULT byte of an outcome (10_state.md R30). -/
def ResultCode.toByte : ResultCode → Byte
  | .ok => 0#8
  | .unsupportedVersion => 1#8
  | .truncated => 2#8
  | .invalidCount => 3#8
  | .illegalOp => 4#8

/-- The codec's completion: `pending <- none`, `BUSY <- 0` (42_control.md R170). -/
def complete (s : State) : State := { s with pending := none, busy := false }

/-- The error-path writes of the encode operations: `TXCNT <- 0`, `FLAGS <- 0` (60_exceptions.md R181). -/
def recordEncode (s : State) : State := { s with txcnt := 0#16, flags := 0#6 }

/-- The error-path writes of the decode operations: `FLAGS <- 0` (60_exceptions.md R181). -/
def recordDecode (s : State) : State := { s with flags := 0#6 }

/-- `raise X` (60_exceptions.md R182), this block's exception entry: the cause goes to RESULT, beside the error-path
writes already `recorded` for it; nothing else changes. No state is saved and nothing is returned from (R186). -/
def raise (cause : ResultCode) (recorded : State) : State := { recorded with result := cause.toByte }

/-- A reset of the environment after power-on: every register of 70_reset_and_hazards.md R200 in one step; the buffers
keep their bytes (R201, R202). The host's own turns and replies are not the block's (log 6). -/
def warmReset (s : State) : State := { State.reset with mem := s.mem, turns := s.turns, replies := s.replies }

end Sys2Proof.Machine
end

