-- ==== Sys2Proof/Machine/Bus.lean ====
section
/-! DEFINITION. The host transactions (20_memory.md R62). -/

namespace Sys2Proof.Machine

/-- WR8, `MemWrite(OFF, 1, DATA)` (20_memory.md R64 to R67). -/
def execWr8 (off : Offset) (data : Byte) (s : State) : Host.Outcome State Fault Refusal := .next (memWrite s off data)

/-- RD8, `MemRead(OFF, 1)`: the block is unchanged, the value goes to the host (20_memory.md R63). -/
def execRd8 (off : Offset) (s : State) : Host.Outcome State Fault Refusal := .next (reply (memRead s off) s)

end Sys2Proof.Machine
end

