-- ==== Sys2Proof/Machine/Operands.lean ====
section
/-! DEFINITION. Operand assembly (30_encoding.md R92): the inputs each operation reads, the checksum (00_scope.md R9), the
little-endian values (R10) and the frame an encode operation builds (30_encoding.md R94). -/

namespace Sys2Proof.Machine

/-- `xor8(L, c, p)` (00_scope.md R9). -/
def xor8 (len code : Byte) (payload : List Byte) : Byte := payload.foldl (fun x b => x ^^^ b) (len ^^^ code)

/-- ENCODE's payload `TXP[0..LEN-1]` (30_encoding.md R92). -/
def encodePayload (s : State) : List Byte := s.bytesAt txpBase s.len.toNat

/-- ENCODE_CHANNELS' payload: each `CH_IN[i]` low byte first, in index order (30_encoding.md R98). -/
def channelPayload (s : State) : List Byte := s.chIn.toList.flatMap (fun v => [getByte v 0, getByte v 1])

/-- A request frame: markers, direction, length, code, payload, checksum (30_encoding.md R94, 40_encode.md R120). -/
def requestFrame (code : Byte) (payload : List Byte) : List Byte :=
  let len := BitVec.ofNat 8 payload.length
  [markDollar, markM, dirRequest, len, code] ++ payload ++ [xor8 len code payload]

/-- `n = min(RXCNT, 512)` (41_decode.md R140). -/
def receivedCount (s : State) : Nat := min s.rxcnt.toNat rxbSize

/-- The length byte `RXB[3]` as a number (30_encoding.md R92). -/
def receivedLen (s : State) : Nat := (s.rxb 3).toNat

/-- The payload `RXB[5..4+L]` of the frame its own length byte describes (41_decode.md R145). -/
def receivedPayload (s : State) : List Byte := s.bytesAt (rxbBase + 5) (receivedLen s)

/-- `le16(RXB, i)` (00_scope.md R10). -/
def rxbHalf (s : State) (i : Nat) : Half := le16 (s.rxb i) (s.rxb (i + 1))

/-- The eight values of a channel response, `le16(RXB, 5 + 2i)` (41_decode.md R155). -/
def rxbChannels (s : State) : Vector Half 8 := Vector.ofFn (fun (i : Fin 8) => rxbHalf s (5 + 2 * i.val))

/-- The 256 bytes DECODE_FRAME leaves in RXP: the payload, then zeros (41_decode.md R146). -/
def rxpImage (s : State) : List Byte := receivedPayload s ++ List.replicate (rxpSize - receivedLen s) 0x00#8

end Sys2Proof.Machine
end

