-- ==== Sys2Proof/Machine/Flags.lean ====
section
/-! DEFINITION. The frame check of a decode (41_decode.md R142) and the FLAGS register (10_state.md R31). -/

namespace Sys2Proof.Machine

/-- What the frame check computes (`sum` is the rule's `calc`), beside the code and length bytes it read (41_decode.md R142, R143). -/
structure FrameCheck where
  code : Byte
  len : Byte
  hdr : Bool
  resp : Bool
  chk : Bool
  sum : Byte
  rchk : Byte
  deriving DecidableEq, Repr

/-- `hdr` of 41_decode.md R142. -/
def headerOk (s : State) : Bool :=
  s.rxb 0 == markDollar && s.rxb 1 == markM && (s.rxb 2 == dirRequest || s.rxb 2 == dirResponse)

/-- `complete` of 41_decode.md R142: the frame its own length byte describes was received whole. -/
def frameComplete (s : State) : Bool := decide (frameOverhead + receivedLen s ≤ receivedCount s)

/-- `calc` of 41_decode.md R142 on a complete frame. -/
def receivedSum (s : State) : Byte := xor8 (s.rxb 3) (s.rxb 4) (receivedPayload s)

/-- The frame check of 41_decode.md R142. -/
def frameCheck (s : State) : FrameCheck where
  code := s.rxb 4
  len := s.rxb 3
  hdr := headerOk s
  resp := headerOk s && s.rxb 2 == dirResponse
  chk := frameComplete s && receivedSum s == s.rxb (5 + receivedLen s)
  sum := if frameComplete s then receivedSum s else 0x00#8
  rchk := if frameComplete s then s.rxb (5 + receivedLen s) else 0x00#8

/-- `FLAGS <- {READY, SHORT, code_ok, chk, resp, hdr}` (41_decode.md R143). -/
def packFlags (ready short codeOk : Bool) (c : FrameCheck) : BitVec 6 :=
  BitVec.ofBool ready ++ BitVec.ofBool short ++ BitVec.ofBool codeOk ++ BitVec.ofBool c.chk ++ BitVec.ofBool c.resp ++
    BitVec.ofBool c.hdr

/-- FLAGS.HDR_OK (10_state.md R31). -/
def State.hdrOk (s : State) : Bool := s.flags.getLsbD 0
/-- FLAGS.DIR_RESP (10_state.md R31). -/
def State.dirResp (s : State) : Bool := s.flags.getLsbD 1
/-- FLAGS.CHK_OK (10_state.md R31). -/
def State.chkOk (s : State) : Bool := s.flags.getLsbD 2
/-- FLAGS.CODE_OK (10_state.md R31). -/
def State.codeOk (s : State) : Bool := s.flags.getLsbD 3
/-- FLAGS.SHORT (10_state.md R31). -/
def State.short (s : State) : Bool := s.flags.getLsbD 4
/-- FLAGS.READY (10_state.md R31). -/
def State.ready (s : State) : Bool := s.flags.getLsbD 5

/-- The common writes of a decode that does not raise (41_decode.md R143). -/
def commonWrites (c : FrameCheck) (flags : BitVec 6) (s : State) : State :=
  { s with rxCode := c.code, rxLen := c.len, rxChk := c.rchk, calcChk := c.sum, flags := flags,
           result := ResultCode.ok.toByte }

end Sys2Proof.Machine
end

