-- ==== Sys2Proof/Machine/Control.lean ====
section
/-! DEFINITION. The control operations (42_control.md): NOP, and what an illegal CMD byte does. -/

namespace Sys2Proof.Machine

/-- NOP (42_control.md R171): `RESULT <- OK`. -/
def execNop (s : State) : Host.Outcome State Fault Refusal := .next { s with result := ResultCode.ok.toByte }

/-- An issued byte of 0x07..0xFF (42_control.md R172): `RESULT <- ILLEGAL_OP` and nothing else. It is no row of the
opcode table, so the codec's turn calls it, not `exec`. -/
def illegalOperation (s : State) : State := raise .illegalOp s

end Sys2Proof.Machine
end

