-- ==== Sys2Proof/Machine/DecodeOps.lean ====
section
/-! DEFINITION. The decode operations (41_decode.md). -/

namespace Sys2Proof.Machine

/-- A decode's raise (41_decode.md R141, R147). -/
def refuseDecode (cause : ResultCode) (s : State) : State := raise cause (recordDecode s)

/-- DECODE_FRAME (41_decode.md R146, R147); the order of the tests is 60_exceptions.md R184's. -/
def execDecodeFrame (s : State) : Host.Outcome State Fault Refusal :=
  if receivedCount s < frameOverhead then .next (refuseDecode .truncated s)
  else if receivedCount s < frameOverhead + receivedLen s then .next (refuseDecode .truncated s)
  else if s.rxb 4 = 0xFF#8 then .next (refuseDecode .unsupportedVersion s)
  else .next (commonWrites (frameCheck s) (packFlags false false true (frameCheck s)) (putBytes rxpBase (rxpImage s) s))

/-- DECODE_ATTITUDE (41_decode.md R150). -/
def execDecodeAttitude (s : State) : Host.Outcome State Fault Refusal :=
  if receivedCount s < attFloor then .next (refuseDecode .truncated s)
  else .next (commonWrites (frameCheck s) (packFlags false false (s.rxb 4 == msgAttitude) (frameCheck s))
    { s with attRoll := rxbHalf s 5, attPitch := rxbHalf s 7, attYaw := rxbHalf s 9, attValid := true })

/-- DECODE_CHANNELS (41_decode.md R155, R156); bytes past the received count are RXB's stored bytes. -/
def execDecodeChannels (s : State) : Host.Outcome State Fault Refusal :=
  if receivedCount s < chFloor then .next (refuseDecode .truncated s)
  else .next (commonWrites (frameCheck s)
    (packFlags false (decide (receivedCount s < chAllReceived)) (s.rxb 4 == msgRc) (frameCheck s))
    { s with chOut := rxbChannels s, chValid := true })

/-- CHECK_READY (41_decode.md R160). -/
def execCheckReady (s : State) : Host.Outcome State Fault Refusal :=
  if receivedCount s < readyFloor then .next (refuseDecode .truncated s)
  else .next (commonWrites (frameCheck s)
    (packFlags (s.rxb readyIndex == readySentinel) false (s.rxb 4 == msgVersion) (frameCheck s)) s)

end Sys2Proof.Machine
end

