-- ==== Sys2Proof/Machine/EncodeOps.lean ====
section
/-! DEFINITION. The encode operations (40_encode.md). -/

namespace Sys2Proof.Machine

/-- A frame into TXF, its length into TXCNT, FLAGS and RESULT 0 (40_encode.md R121, R128). -/
def sendFrame (frame : List Byte) (s : State) : State :=
  { putBytes txfBase frame s with
    txcnt := BitVec.ofNat 16 frame.length, flags := 0#6, result := ResultCode.ok.toByte }

/-- ENCODE (40_encode.md R121 to R123). -/
def execEncode (s : State) : Host.Outcome State Fault Refusal :=
  if maxV1Code < s.code.toNat then .next (raise .unsupportedVersion (recordEncode s))
  else .next (sendFrame (requestFrame (s.code.setWidth 8) (encodePayload s)) s)

/-- ENCODE_CHANNELS (40_encode.md R128, R129). -/
def execEncodeChannels (s : State) : Host.Outcome State Fault Refusal :=
  if s.chCount.toNat ≠ channelCount then .next (raise .invalidCount (recordEncode s))
  else .next (sendFrame (requestFrame msgSetRc (channelPayload s)) s)

end Sys2Proof.Machine
end

