-- ==== Sys2Proof/Machine/Dispatch.lean ====
section
/-! DEFINITION. One arm per instruction. A CMD8 arm performs the operation only; the codec's turn adds the completion
(42_control.md R170; log 16). -/

namespace Sys2Proof.Machine

def exec (i : Instr) (s : State) : Host.Outcome State Fault Refusal :=
  match i with
  | .nop => Sys2Proof.Machine.execNop s
  | .encode => Sys2Proof.Machine.execEncode s
  | .encodeChannels => Sys2Proof.Machine.execEncodeChannels s
  | .decodeFrame => Sys2Proof.Machine.execDecodeFrame s
  | .decodeAttitude => Sys2Proof.Machine.execDecodeAttitude s
  | .decodeChannels => Sys2Proof.Machine.execDecodeChannels s
  | .checkReady => Sys2Proof.Machine.execCheckReady s
  | .wr8 off data => Sys2Proof.Machine.execWr8 off data s
  | .rd8 off => Sys2Proof.Machine.execRd8 off s

end Sys2Proof.Machine
end

