-- ==== Sys2Proof/Machine/Agents.lean ====
section
/-! DEFINITION. What each kind of turn does: a host transaction, the codec's step, a reset (00_scope.md R6,
42_control.md R170, 70_reset_and_hazards.md R202). -/

namespace Sys2Proof.Machine

/-- The completion a codec step adds after its operation (42_control.md R170; log 16). -/
def completing : Host.Outcome State Fault Refusal → Host.Outcome State Fault Refusal
  | .next t => .next (complete t)
  | .fault r => .fault r
  | .refused r => .refused r

/-- The codec's step (42_control.md R170), enabled exactly when an operation is pending; with none pending the block is
idle (60_exceptions.md R194) and the turn changes nothing (log 3). -/
def codecTurn (s : State) : Host.Outcome State Fault Refusal :=
  match s.pending with
  | none => .next s
  | some v =>
    match decodeCmd8 v with
    | .ok i => completing (exec i s)
    | .error _ => .next (complete (illegalOperation s))

/-- One host transaction (20_memory.md R62). -/
def hostTurn (w : BusWord) (s : State) : Host.Outcome State Fault Refusal := exec (decodeBus21 w) s

/-- A reset of the environment (70_reset_and_hazards.md R202). -/
def resetTurn (s : State) : Host.Outcome State Fault Refusal := .next (warmReset s)

/-- The very next event becomes `c`: a CMD8 byte is issued as the host issues it (20_memory.md R66) and the codec is
given the next turn; a BUS21 word is the next transaction (log 7, 8). -/
def placeWord (c : CodeWord) (s : State) : State :=
  match c with
  | .cmd8 op => { issue op s with turns := .codec :: s.turns }
  | .bus21 w => { s with turns := .host w :: s.turns }

end Sys2Proof.Machine
end

