-- ==== Sys2Proof/Machine/Step.lean ====
section
/-! DEFINITION. One event of the total order (20_memory.md R75). -/

namespace Sys2Proof.Machine

/-- The next event: the head of the turns still to come. When none is left the codec moves, so that every issued
operation completes (42_control.md R170, "weak fairness"; log 2). -/
def step (s : State) : Host.Outcome State Fault Refusal :=
  match s.turns with
  | [] => codecTurn s
  | .codec :: rest => codecTurn { s with turns := rest }
  | .host w :: rest => hostTurn w { s with turns := rest }
  | .reset :: rest => resetTurn { s with turns := rest }

/-- `s` with a word of the opcode table stored where `step` takes its next instruction from; a number that is no word
of either format stores nothing (log 7, 8, 9). -/
def State.withFetchWord (s : State) (nbits w : Nat) : State :=
  match tableWord nbits w with
  | .ok c => placeWord c s
  | .error _ => s

end Sys2Proof.Machine
end

