-- ==== Sys2Proof/Machine/Attitude.lean ====
section
/-! DEFINITION. The scaled attitude (41_decode.md R153): the host's exact reading of the raw registers. The block itself
computes no scaled value. -/

namespace Sys2Proof.Machine

/-- Roll, pitch and yaw in degrees, as exact rational numbers (41_decode.md R153; log 15). -/
structure ScaledAttitude where
  roll : Rat
  pitch : Rat
  yaw : Rat
  deriving DecidableEq, Repr

/-- "Roll and pitch are divided by 10.0 ...; yaw is reported in whole degrees, unscaled" (41_decode.md R153). -/
def scaledAttitude (s : State) : ScaledAttitude where
  roll := (s.attRoll.toInt : Rat) / 10
  pitch := (s.attPitch.toInt : Rat) / 10
  yaw := (s.attYaw.toInt : Rat)

/-- The attitude as the source has it: absent until the first decode that does not raise (10_state.md R42). -/
def attitude (s : State) : Option ScaledAttitude := if s.attValid then some (scaledAttitude s) else none

/-- The channel readings as the source has them: absent until the first decode that does not raise (10_state.md R42);
each register is read as a signed value (10_state.md R44). -/
def channels (s : State) : Option (List Int) := if s.chValid then some (s.chOut.toList.map BitVec.toInt) else none

end Sys2Proof.Machine
end

