-- ==== Sys2Proof/Machine/Script.lean ====
section
/-! DEFINITION. The host script of 30_encoding.md R105: its pseudo-instructions, their expansions into the two real
transactions, and the turns they stand for. -/

namespace Sys2Proof.Machine

/-- A line of the host script (30_encoding.md R105). `wait` names how many times it reads STATUS, which depends on
LATENCY (log 14). -/
inductive ScriptLine where
  | wr8 (off : Nat) (v : Byte)
  | rd8 (off : Nat)
  | wr16 (off : Nat) (v : Half)
  | rd16 (off : Nat)
  | wrbuf (off : Nat) (bs : List Byte)
  | rdbuf (off k : Nat)
  | cmd (op : Byte)
  | wait (reads : Nat)
  | clrOverrun
  deriving DecidableEq, Repr

/-- Every offset a line names lies in the window (20_memory.md R62), a buffer line moves at least one byte, and a wait
reads at least once (30_encoding.md R105). -/
def ScriptLine.wf : ScriptLine → Bool
  | .wr8 off _ => decide (off < windowSize)
  | .rd8 off => decide (off < windowSize)
  | .wr16 off _ => decide (off + 1 < windowSize)
  | .rd16 off => decide (off + 1 < windowSize)
  | .wrbuf off bs => decide (0 < bs.length) && decide (off + bs.length ≤ windowSize)
  | .rdbuf off k => decide (0 < k) && decide (off + k ≤ windowSize)
  | .cmd _ => true
  | .wait reads => decide (0 < reads)
  | .clrOverrun => true

/-- Writes at rising offsets (30_encoding.md R105, wrbuf). -/
def writesFrom : Nat → List Byte → List Instr
  | _, [] => []
  | off, b :: bs => .wr8 (BitVec.ofNat 12 off) b :: writesFrom (off + 1) bs

/-- Reads at rising offsets (30_encoding.md R105, rdbuf). -/
def readsFrom : Nat → Nat → List Instr
  | _, 0 => []
  | off, k + 1 => .rd8 (BitVec.ofNat 12 off) :: readsFrom (off + 1) k

/-- The expansions of 30_encoding.md R105. -/
def ScriptLine.expand : ScriptLine → List Instr
  | .wr8 off v => writesFrom off [v]
  | .rd8 off => readsFrom off 1
  | .wr16 off v => writesFrom off [v.extractLsb' 0 8, v.extractLsb' 8 8]
  | .rd16 off => readsFrom off 2
  | .wrbuf off bs => writesFrom off bs
  | .rdbuf off k => readsFrom off k
  | .cmd op => [.wr8 0x100#12 op]
  | .wait reads => List.replicate reads (.rd8 0x101#12)
  | .clrOverrun => [.wr8 0x101#12 0x02#8]

/-- A wait ends with a read whose bit 0 is 0 (30_encoding.md R105). -/
def waitEnds (v : Byte) : Bool := !v.getLsbD 0

/-- The turns of the host that a list of transactions stands for. -/
def hostTurns : List Instr → List Turn
  | [] => []
  | i :: is =>
    match encode i with
    | .bus21 w => .host w :: hostTurns is
    | .cmd8 _ => hostTurns is

/-- The turns a script line stands for. -/
def ScriptLine.turns (l : ScriptLine) : List Turn := hostTurns l.expand

end Sys2Proof.Machine
end

