-- ==== Sys2Proof/Safety.lean ====
section
/-! DEFINITION. The states the machine keeps to (10_state.md R48) and the runs a host's duties allow. -/

namespace Sys2Proof.Machine

/-- `BUSY = 1` exactly when an operation is pending (10_state.md R22). -/
abbrev State.busyAgrees (s : State) : Prop := s.busy = s.pending.isSome

/-- A pending operation is the one CMD names (20_memory.md R66, 10_state.md R28). -/
abbrev State.cmdNamesPending (s : State) : Prop := ∀ v ∈ s.pending, s.cmd = v

/-- `TXCNT = 0` or `6 <= TXCNT <= 261` (10_state.md R36). -/
abbrev State.txcntLegal (s : State) : Prop := s.txcnt.toNat = 0 ∨ (6 ≤ s.txcnt.toNat ∧ s.txcnt.toNat ≤ 261)

/-- `RESULT <= 4` (10_state.md R30). -/
abbrev State.resultLegal (s : State) : Prop := s.result.toNat ≤ 4

/-- `DIR_RESP = 1` implies `HDR_OK = 1`, and SHORT and READY never hold together (10_state.md R48). -/
abbrev State.flagsLegal (s : State) : Prop :=
  (s.flags.getLsbD 1 = true → s.flags.getLsbD 0 = true) ∧ ¬(s.flags.getLsbD 4 = true ∧ s.flags.getLsbD 5 = true)

/-- The invariants of 10_state.md R48 that are not carried by the widths of the fields, with the canonical form of the
buffers' cells and `cmdNamesPending`. -/
abbrev State.Inv (s : State) : Prop :=
  Memory.wf s.mem ∧ s.busyAgrees ∧ s.cmdNamesPending ∧ s.txcntLegal ∧ s.resultLegal ∧ s.flagsLegal

/-- Whether a host write at `off` is one that a busy block would lose (20_memory.md R67). -/
def needsIdle (off : Offset) : Bool :=
  match locate off with
  | .txp _ => true
  | .rxb _ => true
  | .reg .cmd _ => true
  | .reg .code _ => true
  | .reg .len _ => true
  | .reg .chCount _ => true
  | .reg .rxcnt _ => true
  | .reg (.chIn _) _ => true
  | _ => false

/-- The host keeps the busy-write rule with this turn (70_reset_and_hazards.md R207): it makes no write that would be
lost. -/
def keepsBusyRule (s : State) : Turn → Bool
  | .host w =>
    match decodeBus21 w with
    | .wr8 off _ => !(s.busy && needsIdle off)
    | _ => true
  | .codec => true
  | .reset => true

end Sys2Proof.Machine
end

