-- ==== Sys2Proof/Certificates/Slice0/Obligations.lean ====
section
/-! DEFINITION. The statements for the provers. They are written with formulas of their own, read from the rules of spec/,
and with the model's read of one buffer byte (`State.byteAt`, `txp`, `rxb`, `txf`, `rxp`). -/

namespace Sys2Proof.Claims

open Sys2Proof.Machine

/-- `f 0 ^ f 1 ^ ... ^ f (k-1)`. -/
def xorUpTo (f : Nat → Byte) : Nat → Byte
  | 0 => 0#8
  | k + 1 => xorUpTo f k ^^^ f k

/-- `n = min(RXCNT, 512)` (41_decode.md R140). -/
def received (s : State) : Nat := min s.rxcnt.toNat 512

/-- `L`, the length byte as a number. -/
def lenByte (s : State) : Nat := (s.rxb 3).toNat

/-- `complete` of 41_decode.md R142. -/
def whole (s : State) : Prop := 6 + lenByte s ≤ received s

/-- `xor8(L, RXB[4], RXB[5 .. 4 + L])` (00_scope.md R9). -/
def rxSum (s : State) : Byte := s.rxb 3 ^^^ s.rxb 4 ^^^ xorUpTo (fun j => s.rxb (5 + j)) (lenByte s)

/-- The header test of 10_state.md R31. -/
def header (s : State) : Prop := s.rxb 0 = 0x24#8 ∧ s.rxb 1 = 0x4D#8 ∧ (s.rxb 2 = 0x3C#8 ∨ s.rxb 2 = 0x3E#8)

/-- FLAGS of `t` after a decode of `s` that does not raise (10_state.md R31, 41_decode.md R142). -/
def FlagsAfter (s t : State) (codeOk short ready : Prop) : Prop :=
  (t.flags.getLsbD 0 = true ↔ header s) ∧
  (t.flags.getLsbD 1 = true ↔ header s ∧ s.rxb 2 = 0x3E#8) ∧
  (t.flags.getLsbD 2 = true ↔ whole s ∧ rxSum s = s.rxb (5 + lenByte s)) ∧
  (t.flags.getLsbD 3 = true ↔ codeOk) ∧
  (t.flags.getLsbD 4 = true ↔ short) ∧
  (t.flags.getLsbD 5 = true ↔ ready)

/-- The common writes of a decode of `s` that does not raise (41_decode.md R142, R143). -/
def CommonAfter (s t : State) (codeOk short ready : Prop) : Prop :=
  t.rxCode = s.rxb 4 ∧ t.rxLen = s.rxb 3 ∧
  (whole s → t.rxChk = s.rxb (5 + lenByte s) ∧ t.calcChk = rxSum s) ∧
  (¬ whole s → t.rxChk = 0#8 ∧ t.calcChk = 0#8) ∧
  FlagsAfter s t codeOk short ready ∧ t.result = 0#8

/-- `{B[i+1], B[i]}` of RXB (00_scope.md R10). -/
def rx16 (s : State) (i : Nat) : Half := s.rxb (i + 1) ++ s.rxb i

/-- Every register and every other piece of non-buffer state at its reset value (70_reset_and_hazards.md R200). -/
def RegistersReset (t : State) : Prop :=
  t.pending = none ∧ t.cmd = 0x00#8 ∧ t.busy = false ∧ t.overrun = false ∧ t.result = 0x00#8 ∧ t.flags = 0#6 ∧
  t.code = 0x0000#16 ∧ t.len = 0x00#8 ∧ t.chCount = 0x08#8 ∧ t.rxcnt = 0x0000#16 ∧ t.txcnt = 0x0000#16 ∧
  t.rxCode = 0x00#8 ∧ t.rxLen = 0x00#8 ∧ t.rxChk = 0x00#8 ∧ t.calcChk = 0x00#8 ∧
  t.attRoll = 0x0000#16 ∧ t.attPitch = 0x0000#16 ∧ t.attYaw = 0x0000#16 ∧ t.attValid = false ∧ t.chValid = false ∧
  (∀ i : Fin 8, t.chIn[i] = 0x0000#16) ∧ (∀ i : Fin 8, t.chOut[i] = 0x0000#16)

/-- The invariants of 10_state.md R48, in the rule's order; the reserved bits are read through the port. -/
def RuleR48 (s : State) : Prop :=
  (s.busy = true ↔ s.pending ≠ none) ∧
  (s.txcnt.toNat = 0 ∨ 6 ≤ s.txcnt.toNat ∧ s.txcnt.toNat ≤ 261) ∧
  s.result.toNat ≤ 4 ∧
  (memRead s 0x101#12).extractLsb' 2 6 = 0#6 ∧
  (memRead s 0x103#12).extractLsb' 6 2 = 0#2 ∧
  (memRead s 0x116#12).extractLsb' 2 6 = 0#6 ∧
  (s.flags.getLsbD 1 = true → s.flags.getLsbD 0 = true) ∧
  ¬(s.flags.getLsbD 4 = true ∧ s.flags.getLsbD 5 = true)

/-- The six operations that may raise, and NOP: the CMD8 instructions. -/
def isOperation : Instr → Bool
  | .wr8 _ _ => false
  | .rd8 _ => false
  | _ => true

/-- The host's operands, OVERRUN and CMD are the same in `t` as in `s` (42_control.md R173). -/
def OperandsKept (s t : State) : Prop :=
  t.cmd = s.cmd ∧ t.overrun = s.overrun ∧ t.code = s.code ∧ t.len = s.len ∧ t.chCount = s.chCount ∧
  t.rxcnt = s.rxcnt ∧ t.chIn = s.chIn ∧ (∀ j < 256, t.txp j = s.txp j) ∧ (∀ j < 512, t.rxb j = s.rxb j)

/-- The four decode operations with their floors (41_decode.md R141). -/
def floorOf : Instr → Option Nat
  | .decodeFrame => some 6
  | .decodeAttitude => some 12
  | .decodeChannels => some 16
  | .checkReady => some 12
  | _ => none

/-- The offsets of TXP and RXB (20_memory.md R60). -/
def hostBuffer (a : Nat) : Prop := a < 0x100 ∨ (0x200 ≤ a ∧ a < 0x400)

/-- The read-only and the reserved offsets: RESULT, FLAGS, TXCNT to VALID, CH_OUT, TXF, RXP and the gaps (10_state.md R27,
20_memory.md R60). -/
def readOnly (a : Nat) : Prop :=
  a = 0x102 ∨ a = 0x103 ∨ (0x10A ≤ a ∧ a ≤ 0x11F) ∨ (0x130 ≤ a ∧ a ≤ 0x1FF) ∨ 0x400 ≤ a

/-- The offsets of TXF (20_memory.md R60). -/
def inTxf (a : Nat) : Prop := 0x400 ≤ a ∧ a ≤ 0x504

/-- The offsets of RXP (20_memory.md R60). -/
def inRxp (a : Nat) : Prop := 0x600 ≤ a ∧ a ≤ 0x6FF

/-- The next event is the codec's: a codec turn, or no turn left (log 2). -/
def codecNext (s : State) : Prop := s.turns = [] ∨ ∃ rest, s.turns = .codec :: rest

/-- The next event is a host write of `v` at `off`. -/
def writeNext (s : State) (off : Offset) (v : Byte) : Prop := ∃ rest, s.turns = .host (encodeWr8 off v) :: rest

end Sys2Proof.Claims

open Sys2Proof Sys2Proof.Machine Sys2Proof.Claims

/-! ## Reset, reachable states, progress -/

/-- R200 to R202: a reset, whatever the state and whatever is pending, puts every register at its reset value in one
step and keeps every buffer byte; after power-on the registers hold the same values and the buffers free ones. -/
def Obligations.ResetSetsRegistersAndKeepsBuffers : Prop :=
  (∀ (s : State) (rest : List Turn), s.turns = .reset :: rest →
    ∃ t, step s = .next t ∧ RegistersReset t ∧ ∀ a, t.byteAt a = s.byteAt a) ∧
  RegistersReset State.reset ∧ ∀ a, State.reset.byteAt a = Config.powerOnByte a

/-- THE MODEL'S CHOICE (log 6): a reset keeps the turns still to come and what the host has read; neither is the
block's. -/
def Obligations.ResetKeepsTheHostSide : Prop :=
  ∀ (s : State) (rest : List Turn), s.turns = .reset :: rest →
    ∃ t, step s = .next t ∧ t.turns = rest ∧ t.replies = s.replies

/-- The invariant of Safety.lean holds after power-on reset. -/
def Obligations.PowerOnStateMeetsInvariant : Prop := State.reset.Inv ∧ RuleR48 State.reset

/-- Every step keeps the invariant of Safety.lean, from every state that has it. -/
def Obligations.EveryStepKeepsInvariant : Prop :=
  ∀ s t : State, s.Inv → step s = .next t → t.Inv

/-- R48 in every reachable state: after any number of events from power-on, whatever the events are. -/
def Obligations.ReachableStatesMeetRuleR48 : Prop :=
  ∀ (ts : List Turn) (k : Nat) (t : State), core.run k { State.reset with turns := ts } = .next t → RuleR48 t

/-- No step faults or is refused: every operation is total (R170) and no access is refused (R189). Which event a step
takes is the model's choice (log 1). -/
def Obligations.EveryStepCompletes : Prop :=
  ∀ s : State, ∃ t, step s = .next t ∧ t.turns = s.turns.tail

/-- Whatever the host does, once its turns are used up the codec moves and nothing stays pending. That the codec moves
when no turn is left is the model's form of weak fairness (log 2). -/
def Obligations.NothingStaysPendingForever : Prop :=
  ∀ s : State, s.busyAgrees →
    ∃ t, core.run (s.turns.length + 1) s = .next t ∧ t.pending = none ∧ t.busy = false ∧ t.turns = []

/-- From R204: every operation is defined right after power-on: ENCODE encodes code 0 with an empty payload, ENCODE_CHANNELS
eight zeros (CH_COUNT is 8 from reset), and every decode finds n = 0 and raises TRUNCATED. -/
def Obligations.OperationsAreDefinedAfterPowerOn : Prop :=
  (∃ t, exec .encode State.reset = .next t ∧ t.result = 0#8 ∧ t.txcnt = 6#16 ∧
    [t.txf 0, t.txf 1, t.txf 2, t.txf 3, t.txf 4, t.txf 5] = [0x24#8, 0x4D#8, 0x3C#8, 0x00#8, 0x00#8, 0x00#8]) ∧
  (∃ t, exec .encodeChannels State.reset = .next t ∧ t.result = 0#8 ∧ t.txcnt = 22#16 ∧
    (∀ j < 16, t.txf (5 + j) = 0x00#8) ∧ t.txf 21 = 0xD8#8) ∧
  (∀ (i : Instr) (f : Nat), floorOf i = some f →
    ∃ t, exec i State.reset = .next t ∧ t.result = 2#8 ∧ t.flags = 0#6 ∧ t.attValid = false ∧ t.chValid = false)

/-! ## Decoding and what a step runs -/

/-- A step runs the decoded instruction: a host turn is the transaction its word decodes to; a codec's turn is the
operation the pending byte decodes to, with the completion of R170 added; an idle codec changes nothing (log 1, 3). -/
def Obligations.StepRunsDecodedInstruction : Prop :=
  (∀ (s : State) (w : BusWord) (rest : List Turn) (i : Instr), s.turns = .host w :: rest → decode (.bus21 w) = .ok i →
    step s = exec i { s with turns := rest }) ∧
  (∀ (s t : State) (v : Byte) (i : Instr), codecNext s → s.pending = some v → decode (.cmd8 v) = .ok i →
    exec i { s with turns := s.turns.tail } = .next t → step s = .next { t with pending := none, busy := false }) ∧
  (∀ s : State, codecNext s → s.pending = none → step s = .next { s with turns := s.turns.tail })

/-- Words written out from the spec: the CMD8 map of 30_encoding.md R91 and BUS21 words of the listings of
95_test_vectors.md §3. -/
def Obligations.ListedWordsDecode : Prop :=
  decode (.cmd8 0x00#8) = .ok .nop ∧ decode (.cmd8 0x01#8) = .ok .encode ∧
  decode (.cmd8 0x02#8) = .ok .encodeChannels ∧ decode (.cmd8 0x03#8) = .ok .decodeFrame ∧
  decode (.cmd8 0x04#8) = .ok .decodeAttitude ∧ decode (.cmd8 0x05#8) = .ok .decodeChannels ∧
  decode (.cmd8 0x06#8) = .ok .checkReady ∧ decode (.cmd8 0x07#8) = .error (.illegalOp 0x07#8) ∧
  decode (.bus21 0x11046C#21) = .ok (.wr8 0x104#12 0x6C#8) ∧ decode (.bus21 0x120B12#21) = .ok (.wr8 0x20B#12 0x12#8) ∧
  decode (.bus21 0x010200#21) = .ok (.rd8 0x102#12) ∧ decode (.bus21 0x0102FF#21) = .ok (.rd8 0x102#12)

/-- Decoding what is encoded gives the instruction back, for every well-formed instruction, every offset and every data
byte. -/
def Obligations.DecodeOfEncodeIsIdentity : Prop := ∀ i : Instr, i.wf = true → decode (encode i) = .ok i

/-- Encoding what is decoded gives the word back, for every word the spec writes (every named operation, every write,
every read whose ignored bits are shown as 0), and every such word decodes. -/
def Obligations.EncodeOfDecodeIsIdentity : Prop :=
  ∀ c : CodeWord, c.wf = true → ∃ i, decode c = .ok i ∧ encode i = c

/-- From R91, R101: exactly the bytes 0x07..0xFF are illegal, and a legal byte is one of the seven operations. -/
def Obligations.IllegalBytesAreRejected : Prop :=
  ∀ v : Byte, (7 ≤ v.toNat → decode (.cmd8 v) = .error (.illegalOp v)) ∧
    (v.toNat < 7 → ∃ i, decode (.cmd8 v) = .ok i ∧ isOperation i = true ∧ encode i = .cmd8 v)

/-- From R90: bits 7..0 of a read are ignored. -/
def Obligations.ReadIgnoresDataBits : Prop :=
  ∀ (off : Offset) (d : Byte), decode (.bus21 (0#1 ++ off ++ d)) = .ok (.rd8 off)

/-! ## Control -/

/-- R172: a byte of 0x07..0xFF written to CMD of an idle block, then performed, leaves RESULT = ILLEGAL_OP and CMD the
byte, and nothing else changed. -/
def Obligations.IllegalCommandOnlyReports : Prop :=
  ∀ (s : State) (v : Byte) (rest : List Turn), 7 ≤ v.toNat → s.busy = false → s.pending = none →
    s.turns = .host (encodeWr8 0x100#12 v) :: .codec :: rest →
    core.run 2 s = .next { s with cmd := v, result := 4#8, turns := rest }

/-- R171: NOP writes RESULT <- OK only; issued to an idle block and performed, it leaves every register but CMD and
RESULT as it was. -/
def Obligations.NopOnlyClearsResult : Prop :=
  (∀ s : State, exec .nop s = .next { s with result := 0#8 }) ∧
  (∀ (s : State) (rest : List Turn), s.busy = false → s.pending = none →
    s.turns = .host (encodeWr8 0x100#12 0x00#8) :: .codec :: rest →
    core.run 2 s = .next { s with cmd := 0x00#8, result := 0#8, turns := rest })

/-- R173: no operation, whatever its outcome, writes CMD, OVERRUN, CODE, LEN, CH_COUNT, RXCNT, CH_IN or a byte of TXP or
RXB: not one of the named operations, and not the codec's step on any pending byte, an illegal one included. ENCODE
performed twice with no write in between gives the same frame. -/
def Obligations.OperationsKeepOperands : Prop :=
  (∀ (i : Instr) (s : State), isOperation i = true → ∃ t, exec i s = .next t ∧ OperandsKept s t) ∧
  (∀ (s : State) (v : Byte), codecNext s → s.pending = some v → ∃ t, step s = .next t ∧ OperandsKept s t) ∧
  (∀ s t u : State, exec .encode s = .next t → exec .encode t = .next u →
    u.txcnt = t.txcnt ∧ ∀ j < t.txcnt.toNat, u.txf j = t.txf j)

/-! ## Encode operations -/

/-- R121, R126: ENCODE with CODE at most 254 completes with the frame in TXF; TXCNT, FLAGS and RESULT are written,
every byte outside the frame and every other register is unchanged. From 255 on it raises. -/
def Obligations.EncodeBuildsRequestFrame : Prop :=
  (∀ s : State, 255 ≤ s.code.toNat → exec .encode s = .next { s with result := 1#8, txcnt := 0#16, flags := 0#6 }) ∧
  ∀ s : State, s.code.toNat < 255 →
    ∃ t, exec .encode s = .next t ∧
      t = { s with mem := t.mem, txcnt := BitVec.ofNat 16 (6 + s.len.toNat), flags := 0#6, result := 0#8 } ∧
      t.txf 0 = 0x24#8 ∧ t.txf 1 = 0x4D#8 ∧ t.txf 2 = 0x3C#8 ∧ t.txf 3 = s.len ∧ t.txf 4 = s.code.extractLsb' 0 8 ∧
      (∀ j < s.len.toNat, t.txf (5 + j) = s.txp j) ∧
      t.txf (5 + s.len.toNat) = s.len ^^^ s.code.extractLsb' 0 8 ^^^ xorUpTo s.txp s.len.toNat ∧
      ∀ a, a < txfBase ∨ txfBase + (6 + s.len.toNat) ≤ a → t.byteAt a = s.byteAt a

/-- R122, R123: ENCODE raises exactly when CODE is 255 or more, whatever LEN and TXP hold, and then writes RESULT,
TXCNT and FLAGS and nothing else. -/
def Obligations.EncodeRaisesExactlyOnV2Codes : Prop :=
  ∀ s : State,
    (255 ≤ s.code.toNat → exec .encode s = .next { s with result := 1#8, txcnt := 0#16, flags := 0#6 }) ∧
    (∀ t, exec .encode s = .next t → (t.result = 1#8 ↔ 255 ≤ s.code.toNat))

/-- R125: after an ENCODE that returns OK the XOR of TXF[3..4+L] is TXF[5+L], with L the length byte of the frame. -/
def Obligations.EncodedFrameMeetsChecksumLaw : Prop :=
  ∀ s t : State, exec .encode s = .next t → t.result = 0#8 →
    xorUpTo (fun j => t.txf (3 + j)) (2 + (t.txf 3).toNat) = t.txf (5 + (t.txf 3).toNat) ∧
    xorUpTo (fun j => t.txf (3 + j)) (3 + (t.txf 3).toNat) = 0#8

/-- From R173: ENCODE performed again with no write in between leaves the whole state as it is. -/
def Obligations.EncodeTwiceGivesSameFrame : Prop :=
  ∀ s t : State, s.Inv → exec .encode s = .next t → exec .encode t = .next t

/-- From R92: ENCODE's frame, TXCNT, FLAGS and RESULT depend on CODE, LEN and TXP[0..LEN-1] only; TXP[255] in
particular is never read (R23). -/
def Obligations.EncodeReadsOnlyItsOperands : Prop :=
  ∀ s u s' u' : State, s.code = u.code → s.len = u.len → (∀ j < s.len.toNat, s.txp j = u.txp j) →
    exec .encode s = .next s' → exec .encode u = .next u' →
    s'.txcnt = u'.txcnt ∧ s'.flags = u'.flags ∧ s'.result = u'.result ∧
    ∀ j < s'.txcnt.toNat, s'.txf j = u'.txf j

/-- R128, R132: ENCODE_CHANNELS with CH_COUNT = 8 completes with the 22-byte frame in TXF, each channel value low byte
first; everything else is unchanged. With another count it raises. -/
def Obligations.EncodeChannelsBuildsSetFrame : Prop :=
  (∀ s : State, s.chCount ≠ 8#8 →
    exec .encodeChannels s = .next { s with result := 3#8, txcnt := 0#16, flags := 0#6 }) ∧
  ∀ s : State, s.chCount = 8#8 →
    ∃ t, exec .encodeChannels s = .next t ∧
      t = { s with mem := t.mem, txcnt := 22#16, flags := 0#6, result := 0#8 } ∧
      t.txf 0 = 0x24#8 ∧ t.txf 1 = 0x4D#8 ∧ t.txf 2 = 0x3C#8 ∧ t.txf 3 = 16#8 ∧ t.txf 4 = 200#8 ∧
      (∀ i : Fin 8, t.txf (5 + 2 * i.val) = s.chIn[i].extractLsb' 0 8 ∧
        t.txf (6 + 2 * i.val) = s.chIn[i].extractLsb' 8 8) ∧
      t.txf 21 = 16#8 ^^^ 200#8 ^^^ xorUpTo (fun j => t.txf (5 + j)) 16 ∧
      ∀ a, a < txfBase ∨ txfBase + 22 ≤ a → t.byteAt a = s.byteAt a

/-- R129: ENCODE_CHANNELS raises exactly when CH_COUNT is not 8, and then writes RESULT, TXCNT and FLAGS and nothing
else. -/
def Obligations.EncodeChannelsRaisesOnOtherCounts : Prop :=
  ∀ s : State,
    (s.chCount ≠ 8#8 → exec .encodeChannels s = .next { s with result := 3#8, txcnt := 0#16, flags := 0#6 }) ∧
    (∀ t, exec .encodeChannels s = .next t → (t.result = 3#8 ↔ s.chCount ≠ 8#8))

/-- From R131: eight equal values give checksum 0xD8. -/
def Obligations.EqualChannelsGiveChecksumD8 : Prop :=
  ∀ (s t : State) (v : Half), s.chCount = 8#8 → (∀ i : Fin 8, s.chIn[i] = v) → exec .encodeChannels s = .next t →
    t.txf 21 = 0xD8#8

/-! ## Decode operations -/

/-- R141: below its floor a decode writes RESULT <- TRUNCATED and FLAGS <- 0 and nothing else; DECODE_FRAME's second
floor is 6 + RXB[3]. -/
def Obligations.DecodesTruncateBelowTheirFloor : Prop :=
  (∀ (s : State) (i : Instr) (f : Nat), floorOf i = some f → received s < f →
    exec i s = .next { s with result := 2#8, flags := 0#6 }) ∧
  (∀ s : State, received s < 6 + lenByte s → exec .decodeFrame s = .next { s with result := 2#8, flags := 0#6 })

/-- R146: DECODE_FRAME on a whole frame whose code byte is not 255 writes the payload into RXP with zeros after it, and
the common writes; every byte outside RXP and every other register is unchanged. On fewer than 6 received bytes, or
fewer than its length byte asks for, it raises TRUNCATED, and then on code byte 255 UNSUPPORTED_VERSION. -/
def Obligations.DecodeFrameExtractsPayload : Prop :=
  (∀ s : State, received s < 6 ∨ received s < 6 + lenByte s →
    exec .decodeFrame s = .next { s with result := 2#8, flags := 0#6 }) ∧
  (∀ s : State, whole s → s.rxb 4 = 255#8 → exec .decodeFrame s = .next { s with result := 1#8, flags := 0#6 }) ∧
  ∀ s : State, whole s → s.rxb 4 ≠ 255#8 →
    ∃ t, exec .decodeFrame s = .next t ∧
      t = { s with mem := t.mem, rxCode := t.rxCode, rxLen := t.rxLen, rxChk := t.rxChk, calcChk := t.calcChk,
                   flags := t.flags, result := t.result } ∧
      CommonAfter s t True False False ∧
      (∀ j < lenByte s, t.rxp j = s.rxb (5 + j)) ∧ (∀ j, lenByte s ≤ j → j < 256 → t.rxp j = 0#8) ∧
      ∀ a, a < rxpBase ∨ rxpBase + 256 ≤ a → t.byteAt a = s.byteAt a

/-- R147: with the floor met, a code byte of 255 makes DECODE_FRAME raise UNSUPPORTED_VERSION; it writes RESULT and FLAGS
and nothing else. The other decodes never raise it. The order of the causes is R184's. -/
def Obligations.DecodeFrameRefusesCode255 : Prop :=
  (∀ (s t : State) (i : Instr), i = .decodeAttitude ∨ i = .decodeChannels ∨ i = .checkReady → exec i s = .next t →
    t.result ≠ 1#8) ∧
  ∀ s : State,
    (whole s → s.rxb 4 = 255#8 → exec .decodeFrame s = .next { s with result := 1#8, flags := 0#6 }) ∧
    (∀ t, exec .decodeFrame s = .next t →
      (t.result = 2#8 ↔ ¬ whole s) ∧ (t.result = 1#8 ↔ whole s ∧ s.rxb 4 = 255#8))

/-- From R145: bytes at index 6 + L and above do not affect DECODE_FRAME: two states whose frames are whole and which agree
on RXB[0..5+L] give the same RESULT and FLAGS and, when it does not raise, the same results, whatever follows the frame. -/
def Obligations.DecodeFrameIgnoresTrailingBytes : Prop :=
  ∀ s u s' u' : State, whole s → whole u → (∀ j < 6 + lenByte s, s.rxb j = u.rxb j) →
    exec .decodeFrame s = .next s' → exec .decodeFrame u = .next u' →
    s'.result = u'.result ∧ s'.flags = u'.flags ∧
    (s'.result = 0#8 → s'.rxCode = u'.rxCode ∧ s'.rxLen = u'.rxLen ∧ s'.rxChk = u'.rxChk ∧ s'.calcChk = u'.calcChk ∧
      ∀ j < 256, s'.rxp j = u'.rxp j)

/-- R127, R149: the frame ENCODE built from a code of at most 254, copied to RXB with byte 2 replaced by 0x3E and its
length in RXCNT, decodes to the same code, length and payload with FLAGS = 0x0F. -/
def Obligations.EncodeThenDecodeRecoversPayload : Prop :=
  ∀ s t u : State, s.code.toNat < 255 → exec .encode s = .next t →
    u.rxcnt = t.txcnt → (∀ j < t.txcnt.toNat, u.rxb j = if j = 2 then 0x3E#8 else t.txf j) →
    ∃ r, exec .decodeFrame u = .next r ∧ r.result = 0#8 ∧ r.rxCode.setWidth 16 = s.code ∧ r.rxLen = s.len ∧
      r.rxChk = r.calcChk ∧ (∀ j < s.len.toNat, r.rxp j = s.txp j) ∧ r.flags = 0x0F#6

/-- R150: DECODE_ATTITUDE with n at least 12 writes roll, pitch and yaw from RXB[5..10], ATT_VALID and the common
writes; nothing else. With n below 12 it raises TRUNCATED. -/
def Obligations.DecodeAttitudeTakesThreeValues : Prop :=
  (∀ s : State, received s < 12 → exec .decodeAttitude s = .next { s with result := 2#8, flags := 0#6 }) ∧
  ∀ s : State, 12 ≤ received s →
    ∃ t, exec .decodeAttitude s = .next t ∧
      t = { s with attRoll := rx16 s 5, attPitch := rx16 s 7, attYaw := rx16 s 9, attValid := true,
                   rxCode := t.rxCode, rxLen := t.rxLen, rxChk := t.rxChk, calcChk := t.calcChk,
                   flags := t.flags, result := t.result } ∧
      CommonAfter s t (s.rxb 4 = 108#8) False False

/-- R154: the payload 64 00 CE FF 2D 00 decodes to roll 10, pitch -5, yaw 45. -/
def Obligations.AttitudeExampleScales : Prop :=
  ∀ s : State, 12 ≤ received s → s.rxb 5 = 0x64#8 → s.rxb 6 = 0x00#8 → s.rxb 7 = 0xCE#8 → s.rxb 8 = 0xFF#8 →
    s.rxb 9 = 0x2D#8 → s.rxb 10 = 0x00#8 →
    ∃ t, exec .decodeAttitude s = .next t ∧ attitude t = some ⟨10, -5, 45⟩

/-- R155, R156: DECODE_CHANNELS with n at least 16 writes the eight values from RXB[5..20], as stored whether received
or not, CH_VALID, SHORT exactly when n is below 21, and the common writes; nothing else. With n below 16 it raises
TRUNCATED. -/
def Obligations.DecodeChannelsTakesEightValues : Prop :=
  (∀ s : State, received s < 16 → exec .decodeChannels s = .next { s with result := 2#8, flags := 0#6 }) ∧
  ∀ s : State, 16 ≤ received s →
    ∃ t, exec .decodeChannels s = .next t ∧
      t = { s with chOut := t.chOut, chValid := true, rxCode := t.rxCode, rxLen := t.rxLen, rxChk := t.rxChk,
                   calcChk := t.calcChk, flags := t.flags, result := t.result } ∧
      (∀ i : Fin 8, t.chOut[i] = rx16 s (5 + 2 * i.val)) ∧
      CommonAfter s t (s.rxb 4 = 105#8) (received s < 21) False

/-- R160: CHECK_READY with n at least 12 reports READY exactly when RXB[11] is 100, with the common writes; nothing
else. With n below 12 it raises TRUNCATED. -/
def Obligations.CheckReadyTestsSentinel : Prop :=
  (∀ s : State, received s < 12 → exec .checkReady s = .next { s with result := 2#8, flags := 0#6 }) ∧
  ∀ s : State, 12 ≤ received s →
    ∃ t, exec .checkReady s = .next t ∧
      t = { s with rxCode := t.rxCode, rxLen := t.rxLen, rxChk := t.rxChk, calcChk := t.calcChk,
                   flags := t.flags, result := t.result } ∧
      CommonAfter s t (s.rxb 4 = 3#8) False (s.rxb 11 = 100#8)

/-! ## The host port -/

/-- From R63: what a read returns at every offset of the window; the block is unchanged, busy or not. That the value goes
into the model's list of replies is the model's choice (log 5). -/
def Obligations.ReadReturnsWindowByte : Prop :=
  ∀ (s : State) (off : Offset), ∃ v : Byte, exec (.rd8 off) s = .next { s with replies := s.replies ++ [v] } ∧
    (∀ i, i < 256 → off.toNat = i → v = s.txp i) ∧
    (∀ i, i < 512 → off.toNat = 0x200 + i → v = s.rxb i) ∧
    (∀ i, i < 261 → off.toNat = 0x400 + i → v = s.txf i) ∧
    (∀ i, i < 256 → off.toNat = 0x600 + i → v = s.rxp i) ∧
    (off.toNat = 0x100 → v = s.cmd) ∧
    (off.toNat = 0x101 → v = 0#6 ++ BitVec.ofBool s.overrun ++ BitVec.ofBool s.busy) ∧
    (off.toNat = 0x102 → v = s.result) ∧
    (off.toNat = 0x103 → v = 0#2 ++ s.flags) ∧
    (off.toNat = 0x104 → v = s.code.extractLsb' 0 8) ∧ (off.toNat = 0x105 → v = s.code.extractLsb' 8 8) ∧
    (off.toNat = 0x106 → v = s.len) ∧ (off.toNat = 0x107 → v = s.chCount) ∧
    (off.toNat = 0x108 → v = s.rxcnt.extractLsb' 0 8) ∧ (off.toNat = 0x109 → v = s.rxcnt.extractLsb' 8 8) ∧
    (off.toNat = 0x10A → v = s.txcnt.extractLsb' 0 8) ∧ (off.toNat = 0x10B → v = s.txcnt.extractLsb' 8 8) ∧
    (off.toNat = 0x10C → v = s.rxCode) ∧ (off.toNat = 0x10D → v = s.rxLen) ∧
    (off.toNat = 0x10E → v = s.rxChk) ∧ (off.toNat = 0x10F → v = s.calcChk) ∧
    (off.toNat = 0x110 → v = s.attRoll.extractLsb' 0 8) ∧ (off.toNat = 0x111 → v = s.attRoll.extractLsb' 8 8) ∧
    (off.toNat = 0x112 → v = s.attPitch.extractLsb' 0 8) ∧ (off.toNat = 0x113 → v = s.attPitch.extractLsb' 8 8) ∧
    (off.toNat = 0x114 → v = s.attYaw.extractLsb' 0 8) ∧ (off.toNat = 0x115 → v = s.attYaw.extractLsb' 8 8) ∧
    (off.toNat = 0x116 → v = 0#6 ++ BitVec.ofBool s.chValid ++ BitVec.ofBool s.attValid) ∧
    (∀ i : Fin 8, (off.toNat = 0x120 + 2 * i.val → v = s.chIn[i].extractLsb' 0 8) ∧
      (off.toNat = 0x121 + 2 * i.val → v = s.chIn[i].extractLsb' 8 8)) ∧
    (∀ i : Fin 8, (off.toNat = 0x130 + 2 * i.val → v = s.chOut[i].extractLsb' 0 8) ∧
      (off.toNat = 0x131 + 2 * i.val → v = s.chOut[i].extractLsb' 8 8)) ∧
    ((0x117 ≤ off.toNat ∧ off.toNat ≤ 0x11F ∨ 0x140 ≤ off.toNat ∧ off.toNat ≤ 0x1FF ∨
      0x505 ≤ off.toNat ∧ off.toNat ≤ 0x5FF ∨ 0x700 ≤ off.toNat) → v = 0x00#8)

/-- R64, R66: what a write to an idle block does, at every offset of the window. A buffer byte is stored at its own
offset; CMD issues; STATUS clears OVERRUN where bit 1 is 1; one byte of a 16-bit operand register leaves the other as it
was; everywhere else there is no effect. -/
def Obligations.IdleWriteStoresByte : Prop :=
  ∀ (s : State) (off : Offset) (v : Byte), s.busy = false →
    (hostBuffer off.toNat → ∃ t, exec (.wr8 off v) s = .next t ∧ t = { s with mem := t.mem } ∧
      t.byteAt off.toNat = v ∧ ∀ a, a ≠ off.toNat → t.byteAt a = s.byteAt a) ∧
    (off.toNat = 0x100 → exec (.wr8 off v) s = .next { s with cmd := v, pending := some v, busy := true }) ∧
    (off.toNat = 0x104 → exec (.wr8 off v) s = .next { s with code := s.code.extractLsb' 8 8 ++ v }) ∧
    (off.toNat = 0x105 → exec (.wr8 off v) s = .next { s with code := v ++ s.code.extractLsb' 0 8 }) ∧
    (off.toNat = 0x106 → exec (.wr8 off v) s = .next { s with len := v }) ∧
    (off.toNat = 0x107 → exec (.wr8 off v) s = .next { s with chCount := v }) ∧
    (off.toNat = 0x108 → exec (.wr8 off v) s = .next { s with rxcnt := s.rxcnt.extractLsb' 8 8 ++ v }) ∧
    (off.toNat = 0x109 → exec (.wr8 off v) s = .next { s with rxcnt := v ++ s.rxcnt.extractLsb' 0 8 }) ∧
    (∀ i : Fin 8,
      (off.toNat = 0x120 + 2 * i.val →
        exec (.wr8 off v) s = .next { s with chIn := s.chIn.set i (s.chIn[i].extractLsb' 8 8 ++ v) }) ∧
      (off.toNat = 0x121 + 2 * i.val →
        exec (.wr8 off v) s = .next { s with chIn := s.chIn.set i (v ++ s.chIn[i].extractLsb' 0 8) })) ∧
    (off.toNat = 0x101 →
      exec (.wr8 off v) s = .next { s with overrun := if v.getLsbD 1 = true then false else s.overrun }) ∧
    (readOnly off.toNat → exec (.wr8 off v) s = .next s)

/-- R67: while busy, a write to TXP, RXB, CMD, CODE, LEN, CH_COUNT, RXCNT or CH_IN, whatever it carries, changes nothing
but OVERRUN, which becomes 1. A write to STATUS while busy clears OVERRUN where bit 1 is 1 and never sets it. -/
def Obligations.BusyWriteIsLostAndSetsOverrun : Prop :=
  ∀ (s : State) (off : Offset) (v : Byte), s.busy = true →
    ((hostBuffer off.toNat ∨ off.toNat = 0x100 ∨ (0x104 ≤ off.toNat ∧ off.toNat ≤ 0x109) ∨
      (0x120 ≤ off.toNat ∧ off.toNat ≤ 0x12F)) → exec (.wr8 off v) s = .next { s with overrun := true }) ∧
    (off.toNat = 0x101 →
      exec (.wr8 off v) s = .next { s with overrun := if v.getLsbD 1 = true then false else s.overrun })

/-- R65: a write to a read-only or reserved location has no effect at any time, busy or not. -/
def Obligations.ReadOnlyWriteHasNoEffect : Prop :=
  ∀ (s : State) (off : Offset) (v : Byte),
    readOnly off.toNat → exec (.wr8 off v) s = .next s

/-- From R73: repeating a write gives the same state as writing once, at every offset but CMD's, busy or not. -/
def Obligations.RepeatedWriteChangesNothing : Prop :=
  ∀ (s t : State) (off : Offset) (v : Byte), off.toNat ≠ 0x100 → exec (.wr8 off v) s = .next t →
    exec (.wr8 off v) t = .next t

/-- From R71: the two bytes of CODE may be written in either order, with the same final value. -/
def Obligations.CodeBytesMayBeWrittenInEitherOrder : Prop :=
  ∀ (s : State) (lo hi : Byte), s.busy = false →
    ∃ t u, exec (.wr8 0x104#12 lo) s = .next t ∧ exec (.wr8 0x105#12 hi) t = .next { s with code := hi ++ lo } ∧
      exec (.wr8 0x105#12 hi) s = .next u ∧ exec (.wr8 0x104#12 lo) u = .next { s with code := hi ++ lo }

/-- From R205: the order in which an idle block's operands are written does not matter: two writes at different offsets,
neither of them CMD's, give the same state in either order. -/
def Obligations.OperandWritesCommute : Prop :=
  ∀ (s : State) (off off' : Offset) (v v' : Byte), s.Inv → s.busy = false → off ≠ off' →
    off.toNat ≠ 0x100 → off'.toNat ≠ 0x100 →
    ∃ t u r, exec (.wr8 off v) s = .next t ∧ exec (.wr8 off' v') t = .next r ∧
      exec (.wr8 off' v') s = .next u ∧ exec (.wr8 off v) u = .next r

/-- From R67, R78: while an operation is pending, no sequence of host transactions changes anything but OVERRUN and what the
host has read, so the operation finds the operands it was issued with. -/
def Obligations.HostCannotChangeBusyBlock : Prop :=
  ∀ (ws : List BusWord) (s : State) (rest : List Turn), s.busy = true → s.turns = ws.map Turn.host ++ rest →
    ∃ (o : Bool) (new : List Byte), core.run ws.length s =
      .next { s with overrun := o, replies := s.replies ++ new, turns := rest }

/-- From R76: after the codec's turn, BUSY reads as 0: a wait that follows it ends at its first read. -/
def Obligations.WaitEndsAfterCodecStep : Prop :=
  ∀ (s : State) (rest : List Turn), s.turns = .codec :: (ScriptLine.wait 1).turns ++ rest → s.pending ≠ none →
    ∃ t v, core.run 2 s = .next t ∧ t.replies = s.replies ++ [v] ∧ waitEnds v = true ∧ t.turns = rest

/-- From R105: the expansion of `wr16` writes the whole 16-bit register of an idle block, and nothing else: CODE,
RXCNT and each CH_IN[i], which are all the 16-bit registers a host may write. -/
def Obligations.Wr16WritesWholeRegister : Prop :=
  ∀ (s : State) (v : Half) (rest : List Turn), s.busy = false →
    (s.turns = (ScriptLine.wr16 0x104 v).turns ++ rest → core.run 2 s = .next { s with code := v, turns := rest }) ∧
    (s.turns = (ScriptLine.wr16 0x108 v).turns ++ rest → core.run 2 s = .next { s with rxcnt := v, turns := rest }) ∧
    (∀ i : Fin 8, s.turns = (ScriptLine.wr16 (0x120 + 2 * i.val) v).turns ++ rest →
      core.run 2 s = .next { s with chIn := s.chIn.set i v, turns := rest })

/-- From R60: an offset's host address names that offset, and an address outside BASE..BASE+4095 names none. -/
def Obligations.HostAddressesMapToOffsets : Prop :=
  (∀ off : Offset, windowOffset (hostAddress off) = some off) ∧
  (∀ addr : Nat, (∃ off, windowOffset addr = some off) ↔ Config.base ≤ addr ∧ addr ≤ Config.base + 0xFFF) ∧
  Config.base % 4096 = 0

/-! ## Whole-machine rules -/

/-- From R23 to R26, R47: a buffer byte changes only by its writer: a byte of TXP or RXB only by an accepted host write of
that byte, a byte of TXF only by ENCODE or ENCODE_CHANNELS, a byte of RXP only by DECODE_FRAME. -/
def Obligations.BufferBytesChangeOnlyByTheirWriters : Prop :=
  ∀ (s t : State) (a : Nat), step s = .next t → t.byteAt a ≠ s.byteAt a →
    (hostBuffer a ∧ s.busy = false ∧ ∃ off v, off.toNat = a ∧ t.byteAt a = v ∧ writeNext s off v) ∨
    (inTxf a ∧ codecNext s ∧ (s.pending = some 0x01#8 ∨ s.pending = some 0x02#8)) ∨
    (inRxp a ∧ codecNext s ∧ s.pending = some 0x03#8)

/-- From R41: the attitude registers change only by a DECODE_ATTITUDE that does not raise, all three in that step, or by a
reset. -/
def Obligations.AttitudeChangesOnlyTogether : Prop :=
  ∀ s t : State, step s = .next t →
    (t.attRoll ≠ s.attRoll ∨ t.attPitch ≠ s.attPitch ∨ t.attYaw ≠ s.attYaw ∨ t.attValid ≠ s.attValid) →
    (codecNext s ∧ s.pending = some 0x04#8 ∧ 12 ≤ received s ∧ t.attValid = true ∧
      t.attRoll = rx16 s 5 ∧ t.attPitch = rx16 s 7 ∧ t.attYaw = rx16 s 9) ∨
    ∃ rest, s.turns = .reset :: rest

/-- From R42: ATT_VALID and CH_VALID are cleared by nothing but reset. -/
def Obligations.ValidBitsClearedOnlyByReset : Prop :=
  ∀ s t : State, step s = .next t → (∀ rest, s.turns ≠ .reset :: rest) →
    (s.attValid = true → t.attValid = true) ∧ (s.chValid = true → t.chValid = true)

/-- From R29, R183: OVERRUN is set only by a host write lost while busy, and cleared only by a host write to STATUS with bit
1 set or by a reset. -/
def Obligations.OverrunSetAndClearedOnlyByHost : Prop :=
  ∀ s t : State, step s = .next t →
    (s.overrun = false → t.overrun = true → s.busy = true ∧ ∃ off v, writeNext s off v ∧ needsIdle off = true) ∧
    (s.overrun = true → t.overrun = false →
      (∃ v : Byte, v.getLsbD 1 = true ∧ writeNext s 0x101#12 v) ∨ ∃ rest, s.turns = .reset :: rest)

/-- From R207: a host that makes no write while busy to a location that needs an idle block never finds OVERRUN set. -/
def Obligations.DisciplinedHostNeverOverruns : Prop :=
  ∀ (ts : List Turn) (k : Nat) (t : State),
    (∀ (j : Nat) (u : State) (x : Turn) (rest : List Turn), core.run j { State.reset with turns := ts } = .next u →
      u.turns = x :: rest → keepsBusyRule u x = true) →
    core.run k { State.reset with turns := ts } = .next t → t.overrun = false
end

