-- ==== Sys2Proof/Laws/Encoding.lean ====
section
/-! SUPPORT. The fields of the encoded host transactions, and how the decoder takes them apart. -/

namespace Sys2Proof

theorem encodeWr8_we (off : Offset) (d : Byte) : (encodeWr8 off d).getLsbD 20 = true := by
  rw [encodeWr8, BitVec.getLsbD_append, BitVec.getLsbD_append]; rfl

theorem encodeWr8_data (off : Offset) (d : Byte) : (encodeWr8 off d).extractLsb' 0 8 = d :=
  BitVec.extractLsb'_append_eq_right

/-- The middle field of a BUS21 word is its offset. -/
theorem extract_off (we : BitVec 1) (off : Offset) (d : Byte) : (we ++ off ++ d).extractLsb' 8 12 = off := by
  ext i hi
  rw [BitVec.getElem_extractLsb', BitVec.getLsbD_append, BitVec.getLsbD_append]
  simp [hi, show ¬ 8 + i < 8 by omega]

theorem encodeWr8_off (off : Offset) (d : Byte) : (encodeWr8 off d).extractLsb' 8 12 = off := extract_off 1#1 off d

theorem encodeRd8_we (off : Offset) : (encodeRd8 off).getLsbD 20 = false := by
  rw [encodeRd8, BitVec.getLsbD_append, BitVec.getLsbD_append]; rfl

theorem encodeRd8_data (off : Offset) : (encodeRd8 off).extractLsb' 0 8 = 0#8 := BitVec.extractLsb'_append_eq_right

theorem encodeRd8_off (off : Offset) : (encodeRd8 off).extractLsb' 8 12 = off := extract_off 0#1 off 0#8

/-- A word is put together again from its three fields. -/
theorem append_fields (w : BusWord) : w.extractLsb' 20 1 ++ w.extractLsb' 8 12 ++ w.extractLsb' 0 8 = w := by
  apply BitVec.eq_of_getLsbD_eq
  intro i hi
  rw [BitVec.getLsbD_append, BitVec.getLsbD_append]
  by_cases h1 : i < 8
  · simp [h1]
  · by_cases h2 : i < 20
    · simp [h1, show i - 8 < 12 by omega, show 8 + (i - 8) = i by omega]
    · obtain rfl : i = 20 := by omega
      simp

theorem decodeBus21_write {w : BusWord} (h : w.getLsbD 20 = true) :
    decodeBus21 w = .wr8 (w.extractLsb' 8 12) (w.extractLsb' 0 8) := by rw [decodeBus21, if_pos h]

theorem decodeBus21_read {w : BusWord} (h : w.getLsbD 20 = false) : decodeBus21 w = .rd8 (w.extractLsb' 8 12) := by
  rw [decodeBus21, h]; rfl

/-- What a host word can decode to: a write or a read, never an operation of the codec. -/
theorem decodeBus21_cases (w : BusWord) :
    (∃ off v, decodeBus21 w = .wr8 off v ∧ w = encodeWr8 off v) ∨ ∃ off, decodeBus21 w = .rd8 off := by
  cases h : w.getLsbD 20 with
  | false => exact .inr ⟨_, decodeBus21_read h⟩
  | true =>
    refine .inl ⟨_, _, decodeBus21_write h, ?_⟩
    have hw : w.extractLsb' 20 1 = 1#1 := by
      ext i hi
      obtain rfl : i = 0 := by omega
      simpa using h
    rw [encodeWr8, ← hw, append_fields]

/-- What a CMD8 byte decodes to: the operation its value names (30_encoding.md R91), or a rejection by name. -/
theorem decodeCmd8_cases (v : Byte) :
    (v = 0x00#8 ∧ decodeCmd8 v = .ok .nop) ∨ (v = 0x01#8 ∧ decodeCmd8 v = .ok .encode) ∨
    (v = 0x02#8 ∧ decodeCmd8 v = .ok .encodeChannels) ∨ (v = 0x03#8 ∧ decodeCmd8 v = .ok .decodeFrame) ∨
    (v = 0x04#8 ∧ decodeCmd8 v = .ok .decodeAttitude) ∨ (v = 0x05#8 ∧ decodeCmd8 v = .ok .decodeChannels) ∨
    (v = 0x06#8 ∧ decodeCmd8 v = .ok .checkReady) ∨ (7 ≤ v.toNat ∧ decodeCmd8 v = .error (.illegalOp v)) := by
  have eq : ∀ k : Byte, v.toNat = k.toNat → v = k := fun k h => BitVec.eq_of_toNat_eq h
  unfold decodeCmd8
  split
  · rename_i h; exact .inl ⟨eq 0x00#8 h, rfl⟩
  · rename_i h; exact .inr (.inl ⟨eq 0x01#8 h, rfl⟩)
  · rename_i h; exact .inr (.inr (.inl ⟨eq 0x02#8 h, rfl⟩))
  · rename_i h; exact .inr (.inr (.inr (.inl ⟨eq 0x03#8 h, rfl⟩)))
  · rename_i h; exact .inr (.inr (.inr (.inr (.inl ⟨eq 0x04#8 h, rfl⟩))))
  · rename_i h; exact .inr (.inr (.inr (.inr (.inr (.inl ⟨eq 0x05#8 h, rfl⟩)))))
  · rename_i h; exact .inr (.inr (.inr (.inr (.inr (.inr (.inl ⟨eq 0x06#8 h, rfl⟩))))))
  · rename_i h0 h1 h2 h3 h4 h5 h6
    have : v.toNat ≠ 0 ∧ v.toNat ≠ 1 ∧ v.toNat ≠ 2 ∧ v.toNat ≠ 3 ∧ v.toNat ≠ 4 ∧ v.toNat ≠ 5 ∧ v.toNat ≠ 6 :=
      ⟨h0, h1, h2, h3, h4, h5, h6⟩
    exact .inr (.inr (.inr (.inr (.inr (.inr (.inr ⟨by omega, rfl⟩))))))

/-- The byte that names an operation is the byte it encodes to. -/
theorem encode_of_decodeCmd8 {v : Byte} {i : Instr} (h : decodeCmd8 v = .ok i) : encode i = .cmd8 v := by
  rcases decodeCmd8_cases v with ⟨e, h'⟩ | ⟨e, h'⟩ | ⟨e, h'⟩ | ⟨e, h'⟩ | ⟨e, h'⟩ | ⟨e, h'⟩ | ⟨e, h'⟩ | ⟨-, h'⟩
  all_goals (rw [h'] at h; cases h)
  all_goals (subst e; rfl)

end Sys2Proof
end

