-- ==== Sys2Proof/Laws/Memory.lean ====
section
/-! SUPPORT. The laws of the buffers' cells: a read after a write, the canonical form kept by every operation, and equal
reads mean equal memories. -/

namespace Sys2Proof.Machine

/-! ## One byte -/

theorem Memory.read_write_same (m : Memory) (a : Nat) (v : Byte) : Memory.read (Memory.write m a v) a = some v := by
  induction m with
  | nil => simp [Memory.write, Memory.read]
  | cons c m ih =>
    obtain ⟨k, w⟩ := c
    unfold Memory.write
    split
    · simp [Memory.read]
    · split
      · simp [Memory.read]
      · rename_i h1 h2
        simp [Memory.read, ih, Ne.symm h2]

theorem Memory.read_write_other (m : Memory) {a b : Nat} (v : Byte) (h : a ≠ b) :
    Memory.read (Memory.write m a v) b = Memory.read m b := by
  induction m with
  | nil => simp [Memory.write, Memory.read, h]
  | cons c m ih =>
    obtain ⟨k, w⟩ := c
    unfold Memory.write
    split
    · simp [Memory.read, h]
    · split
      · rename_i h2
        subst h2
        simp [Memory.read, h]
      · simp [Memory.read, ih]

/-- Writing a byte twice is writing it once. -/
theorem Memory.write_write_same (m : Memory) (a : Nat) (u v : Byte) :
    Memory.write (Memory.write m a u) a v = Memory.write m a v := by
  induction m with
  | nil => simp [Memory.write]
  | cons c m ih =>
    obtain ⟨k, w⟩ := c
    by_cases h1 : a < k
    · simp [Memory.write, h1]
    · by_cases h2 : a = k
      · simp [Memory.write, h2]
      · simp [Memory.write, h1, h2, ih]

theorem Memory.read_eq_none_of_lt {m : Memory} {a : Nat} (h : ∀ c ∈ m, a < c.1) : Memory.read m a = none := by
  induction m with
  | nil => rfl
  | cons c m ih =>
    have := h c (by simp)
    rw [Memory.read, if_neg (by omega)]
    exact ih fun p hp => h p (by simp [hp])

/-- Writing the byte a listed cell already holds changes nothing, in the canonical form. -/
theorem Memory.write_read_self {m : Memory} (hs : m.Pairwise (fun p q => p.1 < q.1)) {a : Nat} {v : Byte}
    (h : Memory.read m a = some v) : Memory.write m a v = m := by
  induction m with
  | nil => simp [Memory.read] at h
  | cons c m ih =>
    obtain ⟨k, w⟩ := c
    rw [List.pairwise_cons] at hs
    by_cases hk : k = a
    · subst hk
      simp [Memory.read] at h
      simp [Memory.write, h]
    · simp only [Memory.read, hk, if_false] at h
      have hlt : ¬ a < k := fun hak => by
        rw [Memory.read_eq_none_of_lt fun p hp => Nat.lt_trans hak (hs.1 p hp)] at h
        cases h
      simp [Memory.write, hlt, Ne.symm hk, ih hs.2 h]

/-! ## Several bytes -/

theorem Memory.read_writeBytes_outside (bs : List Byte) (m : Memory) {a b : Nat} (h : b < a ∨ a + bs.length ≤ b) :
    Memory.read (Memory.writeBytes m a bs) b = Memory.read m b := by
  induction bs generalizing m a with
  | nil => rfl
  | cons v bs ih =>
    simp only [List.length_cons] at h
    rw [Memory.writeBytes, ih _ (by omega), Memory.read_write_other _ _ (by omega)]

theorem Memory.read_writeBytes_inside (bs : List Byte) (m : Memory) (a i : Nat) (h : i < bs.length) :
    Memory.read (Memory.writeBytes m a bs) (a + i) = some bs[i] := by
  induction bs generalizing m a i with
  | nil => simp at h
  | cons v bs ih =>
    rw [Memory.writeBytes]
    cases i with
    | zero =>
      rw [Memory.read_writeBytes_outside _ _ (by omega)]
      exact Memory.read_write_same m a v
    | succ i =>
      have := ih (Memory.write m a v) (a + 1) i (by simpa using h)
      rw [show a + (i + 1) = a + 1 + i by omega, this]
      rfl

/-! ## The canonical form -/

theorem Memory.mem_write {m : Memory} {a : Nat} {v : Byte} {c : Host.Cell} (h : c ∈ Memory.write m a v) :
    c = (a, v) ∨ c ∈ m := by
  induction m with
  | nil => exact .inl (by simpa [Memory.write] using h)
  | cons d m ih =>
    obtain ⟨k, w⟩ := d
    unfold Memory.write at h
    split at h
    · simpa using h
    · split at h
      · rcases List.mem_cons.1 h with h | h
        · exact .inl h
        · exact .inr (List.mem_cons_of_mem _ h)
      · rcases List.mem_cons.1 h with h | h
        · exact .inr (by simp [h])
        · exact (ih h).imp id (List.mem_cons_of_mem _)

theorem Memory.rising_write {m : Memory} (hs : m.Pairwise (fun p q => p.1 < q.1)) (a : Nat) (v : Byte) :
    (Memory.write m a v).Pairwise (fun p q => p.1 < q.1) := by
  induction m with
  | nil => simp [Memory.write]
  | cons d m ih =>
    obtain ⟨k, w⟩ := d
    rw [List.pairwise_cons] at hs
    unfold Memory.write
    split
    · rename_i hak
      refine List.pairwise_cons.2 ⟨fun c hc => ?_, List.pairwise_cons.2 hs⟩
      rcases List.mem_cons.1 hc with rfl | hc
      · exact hak
      · exact Nat.lt_trans hak (hs.1 c hc)
    · split
      · rename_i hak
        subst hak
        exact List.pairwise_cons.2 hs
      · refine List.pairwise_cons.2 ⟨fun c hc => ?_, ih hs.2⟩
        rcases Memory.mem_write hc with rfl | hc
        · show k < a
          omega
        · exact hs.1 c hc

theorem Memory.wf_nil : Memory.wf [] := ⟨List.Pairwise.nil, by simp⟩

theorem Memory.wf_write {m : Memory} (h : Memory.wf m) {a : Nat} (ha : inBuffers a = true) (v : Byte) :
    Memory.wf (Memory.write m a v) :=
  ⟨Memory.rising_write h.1 a v, fun c hc => (Memory.mem_write hc).elim (fun e => e ▸ ha) (h.2 c)⟩

theorem Memory.wf_writeBytes {bs : List Byte} {m : Memory} (h : Memory.wf m) {a : Nat}
    (ha : ∀ i < bs.length, inBuffers (a + i) = true) : Memory.wf (Memory.writeBytes m a bs) := by
  induction bs generalizing m a with
  | nil => exact h
  | cons v bs ih =>
    refine ih (Memory.wf_write h (ha 0 (by simp)) v) fun i hi => ?_
    have := ha (i + 1) (by simpa using hi)
    rwa [show a + (i + 1) = a + 1 + i by omega] at this

/-- Canonical memories that read alike are equal as data. -/
theorem Memory.eq_of_read_eq {m m' : Memory} (hm : m.Pairwise (fun p q => p.1 < q.1))
    (hm' : m'.Pairwise (fun p q => p.1 < q.1)) (h : ∀ a, Memory.read m a = Memory.read m' a) : m = m' := by
  induction m generalizing m' with
  | nil =>
    cases m' with
    | nil => rfl
    | cons d m' => simpa [Memory.read] using h d.1
  | cons c m ih =>
    obtain ⟨k, v⟩ := c
    rw [List.pairwise_cons] at hm
    cases m' with
    | nil => simpa [Memory.read] using h k
    | cons d m' =>
      obtain ⟨k', v'⟩ := d
      rw [List.pairwise_cons] at hm'
      have hk : k = k' := by
        rcases Nat.lt_trichotomy k k' with hlt | heq | hlt
        · have h1 := h k
          rw [Memory.read_eq_none_of_lt (m := (k', v') :: m')
            (List.forall_mem_cons.2 ⟨hlt, fun c hc => Nat.lt_trans hlt (hm'.1 c hc)⟩)] at h1
          simp [Memory.read] at h1
        · exact heq
        · have h1 := h k'
          rw [Memory.read_eq_none_of_lt (m := (k, v) :: m)
            (List.forall_mem_cons.2 ⟨hlt, fun c hc => Nat.lt_trans hlt (hm.1 c hc)⟩)] at h1
          simp [Memory.read] at h1
      subst hk
      have hv := h k
      simp only [Memory.read, if_true, Option.some.injEq] at hv
      subst hv
      rw [ih hm.2 hm'.2 fun a => ?_]
      by_cases ha : k = a
      · subst ha
        rw [Memory.read_eq_none_of_lt hm.1, Memory.read_eq_none_of_lt hm'.1]
      · simpa [Memory.read, ha] using h a

/-- Writing again the bytes that are there changes nothing, in the canonical form. -/
theorem Memory.writeBytes_self {bs : List Byte} {m : Memory} (hs : m.Pairwise (fun p q => p.1 < q.1)) {a : Nat}
    (h : ∀ i (hi : i < bs.length), Memory.read m (a + i) = some bs[i]) : Memory.writeBytes m a bs = m := by
  induction bs generalizing a with
  | nil => rfl
  | cons v bs ih =>
    have h0 : Memory.read m a = some v := h 0 (by simp)
    rw [Memory.writeBytes, Memory.write_read_self hs h0]
    refine ih fun i hi => ?_
    have := h (i + 1) (by simpa using hi)
    rwa [show a + (i + 1) = a + 1 + i by omega] at this

/-! ## A buffer byte of a state -/

theorem byteAt_congr {s t : State} (h : t.mem = s.mem) (a : Nat) : t.byteAt a = s.byteAt a := by
  rw [State.byteAt, State.byteAt, h]

theorem byteAt_putBytes_outside (bs : List Byte) (s : State) {a b : Nat} (h : b < a ∨ a + bs.length ≤ b) :
    (putBytes a bs s).byteAt b = s.byteAt b := by
  rw [State.byteAt, State.byteAt, putBytes, Memory.read_writeBytes_outside bs s.mem h]

theorem byteAt_putBytes_inside (bs : List Byte) (s : State) (a i : Nat) (h : i < bs.length) :
    (putBytes a bs s).byteAt (a + i) = bs[i] := by
  rw [State.byteAt, putBytes, Memory.read_writeBytes_inside bs s.mem a i h]
  rfl

theorem length_bytesAt (s : State) (a n : Nat) : (s.bytesAt a n).length = n := by
  induction n generalizing a with
  | zero => rfl
  | succ n ih => simp [State.bytesAt, ih]

theorem getElem_bytesAt (s : State) (a n i : Nat) (h : i < (s.bytesAt a n).length) :
    (s.bytesAt a n)[i] = s.byteAt (a + i) := by
  induction n generalizing a i with
  | zero => simp [State.bytesAt] at h
  | succ n ih =>
    cases i with
    | zero => rfl
    | succ i =>
      have h' : i < (s.bytesAt (a + 1) n).length := by simpa [State.bytesAt] using h
      have := ih (a + 1) i h'
      rw [show a + (i + 1) = a + 1 + i by omega, ← this]
      rfl

theorem bytesAt_congr {s t : State} {a n : Nat} (h : ∀ i < n, t.byteAt (a + i) = s.byteAt (a + i)) :
    t.bytesAt a n = s.bytesAt a n := by
  apply List.ext_getElem
  · rw [length_bytesAt, length_bytesAt]
  · intro i h1 h2
    rw [getElem_bytesAt, getElem_bytesAt]
    exact h i (by rwa [length_bytesAt] at h1)

end Sys2Proof.Machine
end

