-- ==== Sys2Proof/Laws/Operands.lean ====
section
/-! SUPPORT. The laws of the assembled operands: the checksum, the lengths and bytes of a request frame, the payloads. -/

namespace Sys2Proof.Machine

/-! ## The checksum (00_scope.md R9) -/

theorem foldl_xor (bs : List Byte) (x : Byte) :
    bs.foldl (fun x b => x ^^^ b) x = x ^^^ bs.foldl (fun x b => x ^^^ b) 0#8 := by
  induction bs generalizing x with
  | nil => simp
  | cons b bs ih => rw [List.foldl_cons, List.foldl_cons, ih (x ^^^ b), ih (0#8 ^^^ b)]; simp [BitVec.xor_assoc]

theorem xor8_nil (l c : Byte) : xor8 l c [] = l ^^^ c := rfl

/-- The checksum grows by one byte at the end of the payload. -/
theorem xor8_concat (l c : Byte) (bs : List Byte) (b : Byte) : xor8 l c (bs ++ [b]) = xor8 l c bs ^^^ b := by
  simp [xor8]

theorem bytesAt_succ (s : State) (a n : Nat) : s.bytesAt a (n + 1) = s.bytesAt a n ++ [s.byteAt (a + n)] := by
  induction n generalizing a with
  | zero => rfl
  | succ n ih =>
    rw [State.bytesAt, ih (a + 1), State.bytesAt, List.cons_append, show a + 1 + n = a + (n + 1) by omega]

/-! ## Payloads -/

theorem length_encodePayload (s : State) : (encodePayload s).length = s.len.toNat := length_bytesAt _ _ _

theorem getElem_encodePayload (s : State) (i : Nat) (h : i < (encodePayload s).length) :
    (encodePayload s)[i] = s.txp i := getElem_bytesAt _ _ _ _ h

theorem length_receivedPayload (s : State) : (receivedPayload s).length = receivedLen s := length_bytesAt _ _ _

theorem getElem_receivedPayload (s : State) (i : Nat) (h : i < (receivedPayload s).length) :
    (receivedPayload s)[i] = s.rxb (5 + i) := by
  rw [State.rxb, show rxbBase + (5 + i) = rxbBase + 5 + i by omega]
  exact getElem_bytesAt _ _ _ _ h

theorem length_flatMap_pair {α β : Type} (f g : α → β) (l : List α) :
    (l.flatMap fun v => [f v, g v]).length = 2 * l.length := by
  induction l with
  | nil => rfl
  | cons v l ih =>
    rw [List.flatMap_cons, List.length_append, ih, List.length_cons]
    simp
    omega

theorem getElem_flatMap_pair {α β : Type} (f g : α → β) (l : List α) (i : Nat) (h : i < l.length) :
    (l.flatMap fun v => [f v, g v])[2 * i]'(by rw [length_flatMap_pair]; omega) = f l[i] ∧
    (l.flatMap fun v => [f v, g v])[2 * i + 1]'(by rw [length_flatMap_pair]; omega) = g l[i] := by
  induction l generalizing i with
  | nil => simp at h
  | cons v l ih =>
    cases i with
    | zero => exact ⟨rfl, rfl⟩
    | succ i =>
      have := ih i (by simpa using h)
      exact ⟨by simpa [List.flatMap_cons, show 2 * (i + 1) = 2 * i + 1 + 1 by omega] using this.1,
        by simpa [List.flatMap_cons, show 2 * (i + 1) = 2 * i + 1 + 1 by omega] using this.2⟩

theorem length_channelPayload (s : State) : (channelPayload s).length = 16 := by
  rw [channelPayload, length_flatMap_pair, Vector.length_toList]

/-- Channel `i` stands at payload bytes `2i` (low) and `2i + 1` (high) (30_encoding.md R98). -/
theorem getElem_channelPayload (s : State) (i : Nat) (h : i < 8) :
    (channelPayload s)[2 * i]'(by rw [length_channelPayload]; omega) = getByte s.chIn[i] 0 ∧
    (channelPayload s)[2 * i + 1]'(by rw [length_channelPayload]; omega) = getByte s.chIn[i] 1 := by
  have := getElem_flatMap_pair (fun v => getByte v 0) (fun v => getByte v 1) s.chIn.toList i (by simpa using h)
  simpa [channelPayload] using this

/-- Channel `i` of a received channel frame (41_decode.md R155). -/
theorem getElem_rxbChannels (s : State) (i : Nat) (h : i < 8) : (rxbChannels s)[i] = rxbHalf s (5 + 2 * i) := by
  simp [rxbChannels]

theorem receivedLen_lt (s : State) : receivedLen s < 256 := (s.rxb 3).isLt

theorem length_rxpImage (s : State) : (rxpImage s).length = 256 := by
  have := receivedLen_lt s
  rw [rxpImage, List.length_append, length_receivedPayload, List.length_replicate]
  show receivedLen s + (256 - receivedLen s) = 256
  omega

theorem getElem_rxpImage (s : State) (i : Nat) (h : i < (rxpImage s).length) :
    (rxpImage s)[i] = if i < receivedLen s then s.rxb (5 + i) else 0#8 := by
  split
  · rename_i hi
    rw [show (rxpImage s)[i] = (receivedPayload s)[i]'(by rwa [length_receivedPayload]) from
      List.getElem_append_left _, getElem_receivedPayload]
  · rename_i hi
    have : (rxpImage s)[i] = _ := List.getElem_append_right (by rw [length_receivedPayload]; omega)
    rw [this, List.getElem_replicate]

/-! ## The request frame (30_encoding.md R94) -/

theorem length_requestFrame (c : Byte) (p : List Byte) : (requestFrame c p).length = 6 + p.length := by
  simp [requestFrame]
  omega

theorem requestFrame_header (c : Byte) (p : List Byte) (h : ∀ i < 5, i < (requestFrame c p).length) :
    (requestFrame c p)[0]'(h 0 (by omega)) = 0x24#8 ∧ (requestFrame c p)[1]'(h 1 (by omega)) = 0x4D#8 ∧
    (requestFrame c p)[2]'(h 2 (by omega)) = 0x3C#8 ∧
    (requestFrame c p)[3]'(h 3 (by omega)) = BitVec.ofNat 8 p.length ∧ (requestFrame c p)[4]'(h 4 (by omega)) = c :=
  ⟨rfl, rfl, rfl, rfl, rfl⟩

theorem requestFrame_payload (c : Byte) (p : List Byte) (i : Nat) (hi : i < p.length)
    (h : 5 + i < (requestFrame c p).length) : (requestFrame c p)[5 + i] = p[i] := by
  simp [requestFrame, show 5 + i = i + 1 + 1 + 1 + 1 + 1 by omega, hi]

theorem requestFrame_checksum (c : Byte) (p : List Byte) (h : 5 + p.length < (requestFrame c p).length) :
    (requestFrame c p)[5 + p.length] = xor8 (BitVec.ofNat 8 p.length) c p := by
  simp [requestFrame, show 5 + p.length = p.length + 1 + 1 + 1 + 1 + 1 by omega]

end Sys2Proof.Machine
end

