-- ==== Sys2Proof/Laws/Flags.lean ====
section
/-! SUPPORT. The bits of FLAGS (10_state.md R31). -/

namespace Sys2Proof.Machine

theorem six_bits : ∀ a b c d e f : Bool, ∀ v : BitVec 6,
    v = BitVec.ofBool a ++ BitVec.ofBool b ++ BitVec.ofBool c ++ BitVec.ofBool d ++ BitVec.ofBool e ++ BitVec.ofBool f →
    v.getLsbD 0 = f ∧ v.getLsbD 1 = e ∧ v.getLsbD 2 = d ∧ v.getLsbD 3 = c ∧ v.getLsbD 4 = b ∧ v.getLsbD 5 = a := by
  rintro a b c d e f _ rfl
  revert a b c d e f
  decide

/-- Each bit of a packed FLAGS value, by its place in 10_state.md R31. -/
theorem packFlags_bits (r sh co : Bool) (c : FrameCheck) :
    (packFlags r sh co c).getLsbD 0 = c.hdr ∧ (packFlags r sh co c).getLsbD 1 = c.resp ∧
    (packFlags r sh co c).getLsbD 2 = c.chk ∧ (packFlags r sh co c).getLsbD 3 = co ∧
    (packFlags r sh co c).getLsbD 4 = sh ∧ (packFlags r sh co c).getLsbD 5 = r :=
  six_bits r sh co c.chk c.resp c.hdr _ rfl

/-- A response direction is only ever reported with a header (10_state.md R48). -/
theorem frameCheck_resp (s : State) (h : (frameCheck s).resp = true) : (frameCheck s).hdr = true :=
  (Bool.and_eq_true _ _ ▸ h : _ ∧ _).1

end Sys2Proof.Machine
end

