-- ==== Sys2Proof/Laws/State.lean ====
section
/-! SUPPORT. What each named update does to each field of State: one lemma per field and update, true by rfl. -/

namespace Sys2Proof.Machine

/-! ## complete -/

@[simp] theorem complete_mem (s : State) : (complete s).mem = s.mem := rfl
@[simp] theorem complete_cmd (s : State) : (complete s).cmd = s.cmd := rfl
@[simp] theorem complete_busy (s : State) : (complete s).busy = false := rfl
@[simp] theorem complete_overrun (s : State) : (complete s).overrun = s.overrun := rfl
@[simp] theorem complete_result (s : State) : (complete s).result = s.result := rfl
@[simp] theorem complete_flags (s : State) : (complete s).flags = s.flags := rfl
@[simp] theorem complete_code (s : State) : (complete s).code = s.code := rfl
@[simp] theorem complete_len (s : State) : (complete s).len = s.len := rfl
@[simp] theorem complete_chCount (s : State) : (complete s).chCount = s.chCount := rfl
@[simp] theorem complete_rxcnt (s : State) : (complete s).rxcnt = s.rxcnt := rfl
@[simp] theorem complete_txcnt (s : State) : (complete s).txcnt = s.txcnt := rfl
@[simp] theorem complete_rxCode (s : State) : (complete s).rxCode = s.rxCode := rfl
@[simp] theorem complete_rxLen (s : State) : (complete s).rxLen = s.rxLen := rfl
@[simp] theorem complete_rxChk (s : State) : (complete s).rxChk = s.rxChk := rfl
@[simp] theorem complete_calcChk (s : State) : (complete s).calcChk = s.calcChk := rfl
@[simp] theorem complete_attRoll (s : State) : (complete s).attRoll = s.attRoll := rfl
@[simp] theorem complete_attPitch (s : State) : (complete s).attPitch = s.attPitch := rfl
@[simp] theorem complete_attYaw (s : State) : (complete s).attYaw = s.attYaw := rfl
@[simp] theorem complete_attValid (s : State) : (complete s).attValid = s.attValid := rfl
@[simp] theorem complete_chValid (s : State) : (complete s).chValid = s.chValid := rfl
@[simp] theorem complete_chIn (s : State) : (complete s).chIn = s.chIn := rfl
@[simp] theorem complete_chOut (s : State) : (complete s).chOut = s.chOut := rfl
@[simp] theorem complete_pending (s : State) : (complete s).pending = none := rfl
@[simp] theorem complete_turns (s : State) : (complete s).turns = s.turns := rfl
@[simp] theorem complete_replies (s : State) : (complete s).replies = s.replies := rfl

/-! ## issue -/

@[simp] theorem issue_mem (v : Byte) (s : State) : (issue v s).mem = s.mem := rfl
@[simp] theorem issue_cmd (v : Byte) (s : State) : (issue v s).cmd = v := rfl
@[simp] theorem issue_busy (v : Byte) (s : State) : (issue v s).busy = true := rfl
@[simp] theorem issue_overrun (v : Byte) (s : State) : (issue v s).overrun = s.overrun := rfl
@[simp] theorem issue_result (v : Byte) (s : State) : (issue v s).result = s.result := rfl
@[simp] theorem issue_flags (v : Byte) (s : State) : (issue v s).flags = s.flags := rfl
@[simp] theorem issue_code (v : Byte) (s : State) : (issue v s).code = s.code := rfl
@[simp] theorem issue_len (v : Byte) (s : State) : (issue v s).len = s.len := rfl
@[simp] theorem issue_chCount (v : Byte) (s : State) : (issue v s).chCount = s.chCount := rfl
@[simp] theorem issue_rxcnt (v : Byte) (s : State) : (issue v s).rxcnt = s.rxcnt := rfl
@[simp] theorem issue_txcnt (v : Byte) (s : State) : (issue v s).txcnt = s.txcnt := rfl
@[simp] theorem issue_rxCode (v : Byte) (s : State) : (issue v s).rxCode = s.rxCode := rfl
@[simp] theorem issue_rxLen (v : Byte) (s : State) : (issue v s).rxLen = s.rxLen := rfl
@[simp] theorem issue_rxChk (v : Byte) (s : State) : (issue v s).rxChk = s.rxChk := rfl
@[simp] theorem issue_calcChk (v : Byte) (s : State) : (issue v s).calcChk = s.calcChk := rfl
@[simp] theorem issue_attRoll (v : Byte) (s : State) : (issue v s).attRoll = s.attRoll := rfl
@[simp] theorem issue_attPitch (v : Byte) (s : State) : (issue v s).attPitch = s.attPitch := rfl
@[simp] theorem issue_attYaw (v : Byte) (s : State) : (issue v s).attYaw = s.attYaw := rfl
@[simp] theorem issue_attValid (v : Byte) (s : State) : (issue v s).attValid = s.attValid := rfl
@[simp] theorem issue_chValid (v : Byte) (s : State) : (issue v s).chValid = s.chValid := rfl
@[simp] theorem issue_chIn (v : Byte) (s : State) : (issue v s).chIn = s.chIn := rfl
@[simp] theorem issue_chOut (v : Byte) (s : State) : (issue v s).chOut = s.chOut := rfl
@[simp] theorem issue_pending (v : Byte) (s : State) : (issue v s).pending = some v := rfl
@[simp] theorem issue_turns (v : Byte) (s : State) : (issue v s).turns = s.turns := rfl
@[simp] theorem issue_replies (v : Byte) (s : State) : (issue v s).replies = s.replies := rfl

/-! ## reply -/

@[simp] theorem reply_mem (v : Byte) (s : State) : (reply v s).mem = s.mem := rfl
@[simp] theorem reply_cmd (v : Byte) (s : State) : (reply v s).cmd = s.cmd := rfl
@[simp] theorem reply_busy (v : Byte) (s : State) : (reply v s).busy = s.busy := rfl
@[simp] theorem reply_overrun (v : Byte) (s : State) : (reply v s).overrun = s.overrun := rfl
@[simp] theorem reply_result (v : Byte) (s : State) : (reply v s).result = s.result := rfl
@[simp] theorem reply_flags (v : Byte) (s : State) : (reply v s).flags = s.flags := rfl
@[simp] theorem reply_code (v : Byte) (s : State) : (reply v s).code = s.code := rfl
@[simp] theorem reply_len (v : Byte) (s : State) : (reply v s).len = s.len := rfl
@[simp] theorem reply_chCount (v : Byte) (s : State) : (reply v s).chCount = s.chCount := rfl
@[simp] theorem reply_rxcnt (v : Byte) (s : State) : (reply v s).rxcnt = s.rxcnt := rfl
@[simp] theorem reply_txcnt (v : Byte) (s : State) : (reply v s).txcnt = s.txcnt := rfl
@[simp] theorem reply_rxCode (v : Byte) (s : State) : (reply v s).rxCode = s.rxCode := rfl
@[simp] theorem reply_rxLen (v : Byte) (s : State) : (reply v s).rxLen = s.rxLen := rfl
@[simp] theorem reply_rxChk (v : Byte) (s : State) : (reply v s).rxChk = s.rxChk := rfl
@[simp] theorem reply_calcChk (v : Byte) (s : State) : (reply v s).calcChk = s.calcChk := rfl
@[simp] theorem reply_attRoll (v : Byte) (s : State) : (reply v s).attRoll = s.attRoll := rfl
@[simp] theorem reply_attPitch (v : Byte) (s : State) : (reply v s).attPitch = s.attPitch := rfl
@[simp] theorem reply_attYaw (v : Byte) (s : State) : (reply v s).attYaw = s.attYaw := rfl
@[simp] theorem reply_attValid (v : Byte) (s : State) : (reply v s).attValid = s.attValid := rfl
@[simp] theorem reply_chValid (v : Byte) (s : State) : (reply v s).chValid = s.chValid := rfl
@[simp] theorem reply_chIn (v : Byte) (s : State) : (reply v s).chIn = s.chIn := rfl
@[simp] theorem reply_chOut (v : Byte) (s : State) : (reply v s).chOut = s.chOut := rfl
@[simp] theorem reply_pending (v : Byte) (s : State) : (reply v s).pending = s.pending := rfl
@[simp] theorem reply_turns (v : Byte) (s : State) : (reply v s).turns = s.turns := rfl
@[simp] theorem reply_replies (v : Byte) (s : State) : (reply v s).replies = s.replies ++ [v] := rfl

/-! ## putBytes -/

@[simp] theorem putBytes_mem (a : Nat) (bs : List Byte) (s : State) : (putBytes a bs s).mem = Memory.writeBytes s.mem a bs := rfl
@[simp] theorem putBytes_cmd (a : Nat) (bs : List Byte) (s : State) : (putBytes a bs s).cmd = s.cmd := rfl
@[simp] theorem putBytes_busy (a : Nat) (bs : List Byte) (s : State) : (putBytes a bs s).busy = s.busy := rfl
@[simp] theorem putBytes_overrun (a : Nat) (bs : List Byte) (s : State) : (putBytes a bs s).overrun = s.overrun := rfl
@[simp] theorem putBytes_result (a : Nat) (bs : List Byte) (s : State) : (putBytes a bs s).result = s.result := rfl
@[simp] theorem putBytes_flags (a : Nat) (bs : List Byte) (s : State) : (putBytes a bs s).flags = s.flags := rfl
@[simp] theorem putBytes_code (a : Nat) (bs : List Byte) (s : State) : (putBytes a bs s).code = s.code := rfl
@[simp] theorem putBytes_len (a : Nat) (bs : List Byte) (s : State) : (putBytes a bs s).len = s.len := rfl
@[simp] theorem putBytes_chCount (a : Nat) (bs : List Byte) (s : State) : (putBytes a bs s).chCount = s.chCount := rfl
@[simp] theorem putBytes_rxcnt (a : Nat) (bs : List Byte) (s : State) : (putBytes a bs s).rxcnt = s.rxcnt := rfl
@[simp] theorem putBytes_txcnt (a : Nat) (bs : List Byte) (s : State) : (putBytes a bs s).txcnt = s.txcnt := rfl
@[simp] theorem putBytes_rxCode (a : Nat) (bs : List Byte) (s : State) : (putBytes a bs s).rxCode = s.rxCode := rfl
@[simp] theorem putBytes_rxLen (a : Nat) (bs : List Byte) (s : State) : (putBytes a bs s).rxLen = s.rxLen := rfl
@[simp] theorem putBytes_rxChk (a : Nat) (bs : List Byte) (s : State) : (putBytes a bs s).rxChk = s.rxChk := rfl
@[simp] theorem putBytes_calcChk (a : Nat) (bs : List Byte) (s : State) : (putBytes a bs s).calcChk = s.calcChk := rfl
@[simp] theorem putBytes_attRoll (a : Nat) (bs : List Byte) (s : State) : (putBytes a bs s).attRoll = s.attRoll := rfl
@[simp] theorem putBytes_attPitch (a : Nat) (bs : List Byte) (s : State) : (putBytes a bs s).attPitch = s.attPitch := rfl
@[simp] theorem putBytes_attYaw (a : Nat) (bs : List Byte) (s : State) : (putBytes a bs s).attYaw = s.attYaw := rfl
@[simp] theorem putBytes_attValid (a : Nat) (bs : List Byte) (s : State) : (putBytes a bs s).attValid = s.attValid := rfl
@[simp] theorem putBytes_chValid (a : Nat) (bs : List Byte) (s : State) : (putBytes a bs s).chValid = s.chValid := rfl
@[simp] theorem putBytes_chIn (a : Nat) (bs : List Byte) (s : State) : (putBytes a bs s).chIn = s.chIn := rfl
@[simp] theorem putBytes_chOut (a : Nat) (bs : List Byte) (s : State) : (putBytes a bs s).chOut = s.chOut := rfl
@[simp] theorem putBytes_pending (a : Nat) (bs : List Byte) (s : State) : (putBytes a bs s).pending = s.pending := rfl
@[simp] theorem putBytes_turns (a : Nat) (bs : List Byte) (s : State) : (putBytes a bs s).turns = s.turns := rfl
@[simp] theorem putBytes_replies (a : Nat) (bs : List Byte) (s : State) : (putBytes a bs s).replies = s.replies := rfl

/-! ## recordEncode -/

@[simp] theorem recordEncode_mem (s : State) : (recordEncode s).mem = s.mem := rfl
@[simp] theorem recordEncode_cmd (s : State) : (recordEncode s).cmd = s.cmd := rfl
@[simp] theorem recordEncode_busy (s : State) : (recordEncode s).busy = s.busy := rfl
@[simp] theorem recordEncode_overrun (s : State) : (recordEncode s).overrun = s.overrun := rfl
@[simp] theorem recordEncode_result (s : State) : (recordEncode s).result = s.result := rfl
@[simp] theorem recordEncode_flags (s : State) : (recordEncode s).flags = 0#6 := rfl
@[simp] theorem recordEncode_code (s : State) : (recordEncode s).code = s.code := rfl
@[simp] theorem recordEncode_len (s : State) : (recordEncode s).len = s.len := rfl
@[simp] theorem recordEncode_chCount (s : State) : (recordEncode s).chCount = s.chCount := rfl
@[simp] theorem recordEncode_rxcnt (s : State) : (recordEncode s).rxcnt = s.rxcnt := rfl
@[simp] theorem recordEncode_txcnt (s : State) : (recordEncode s).txcnt = 0#16 := rfl
@[simp] theorem recordEncode_rxCode (s : State) : (recordEncode s).rxCode = s.rxCode := rfl
@[simp] theorem recordEncode_rxLen (s : State) : (recordEncode s).rxLen = s.rxLen := rfl
@[simp] theorem recordEncode_rxChk (s : State) : (recordEncode s).rxChk = s.rxChk := rfl
@[simp] theorem recordEncode_calcChk (s : State) : (recordEncode s).calcChk = s.calcChk := rfl
@[simp] theorem recordEncode_attRoll (s : State) : (recordEncode s).attRoll = s.attRoll := rfl
@[simp] theorem recordEncode_attPitch (s : State) : (recordEncode s).attPitch = s.attPitch := rfl
@[simp] theorem recordEncode_attYaw (s : State) : (recordEncode s).attYaw = s.attYaw := rfl
@[simp] theorem recordEncode_attValid (s : State) : (recordEncode s).attValid = s.attValid := rfl
@[simp] theorem recordEncode_chValid (s : State) : (recordEncode s).chValid = s.chValid := rfl
@[simp] theorem recordEncode_chIn (s : State) : (recordEncode s).chIn = s.chIn := rfl
@[simp] theorem recordEncode_chOut (s : State) : (recordEncode s).chOut = s.chOut := rfl
@[simp] theorem recordEncode_pending (s : State) : (recordEncode s).pending = s.pending := rfl
@[simp] theorem recordEncode_turns (s : State) : (recordEncode s).turns = s.turns := rfl
@[simp] theorem recordEncode_replies (s : State) : (recordEncode s).replies = s.replies := rfl

/-! ## recordDecode -/

@[simp] theorem recordDecode_mem (s : State) : (recordDecode s).mem = s.mem := rfl
@[simp] theorem recordDecode_cmd (s : State) : (recordDecode s).cmd = s.cmd := rfl
@[simp] theorem recordDecode_busy (s : State) : (recordDecode s).busy = s.busy := rfl
@[simp] theorem recordDecode_overrun (s : State) : (recordDecode s).overrun = s.overrun := rfl
@[simp] theorem recordDecode_result (s : State) : (recordDecode s).result = s.result := rfl
@[simp] theorem recordDecode_flags (s : State) : (recordDecode s).flags = 0#6 := rfl
@[simp] theorem recordDecode_code (s : State) : (recordDecode s).code = s.code := rfl
@[simp] theorem recordDecode_len (s : State) : (recordDecode s).len = s.len := rfl
@[simp] theorem recordDecode_chCount (s : State) : (recordDecode s).chCount = s.chCount := rfl
@[simp] theorem recordDecode_rxcnt (s : State) : (recordDecode s).rxcnt = s.rxcnt := rfl
@[simp] theorem recordDecode_txcnt (s : State) : (recordDecode s).txcnt = s.txcnt := rfl
@[simp] theorem recordDecode_rxCode (s : State) : (recordDecode s).rxCode = s.rxCode := rfl
@[simp] theorem recordDecode_rxLen (s : State) : (recordDecode s).rxLen = s.rxLen := rfl
@[simp] theorem recordDecode_rxChk (s : State) : (recordDecode s).rxChk = s.rxChk := rfl
@[simp] theorem recordDecode_calcChk (s : State) : (recordDecode s).calcChk = s.calcChk := rfl
@[simp] theorem recordDecode_attRoll (s : State) : (recordDecode s).attRoll = s.attRoll := rfl
@[simp] theorem recordDecode_attPitch (s : State) : (recordDecode s).attPitch = s.attPitch := rfl
@[simp] theorem recordDecode_attYaw (s : State) : (recordDecode s).attYaw = s.attYaw := rfl
@[simp] theorem recordDecode_attValid (s : State) : (recordDecode s).attValid = s.attValid := rfl
@[simp] theorem recordDecode_chValid (s : State) : (recordDecode s).chValid = s.chValid := rfl
@[simp] theorem recordDecode_chIn (s : State) : (recordDecode s).chIn = s.chIn := rfl
@[simp] theorem recordDecode_chOut (s : State) : (recordDecode s).chOut = s.chOut := rfl
@[simp] theorem recordDecode_pending (s : State) : (recordDecode s).pending = s.pending := rfl
@[simp] theorem recordDecode_turns (s : State) : (recordDecode s).turns = s.turns := rfl
@[simp] theorem recordDecode_replies (s : State) : (recordDecode s).replies = s.replies := rfl

/-! ## raise -/

@[simp] theorem raise_mem (c : ResultCode) (s : State) : (raise c s).mem = s.mem := rfl
@[simp] theorem raise_cmd (c : ResultCode) (s : State) : (raise c s).cmd = s.cmd := rfl
@[simp] theorem raise_busy (c : ResultCode) (s : State) : (raise c s).busy = s.busy := rfl
@[simp] theorem raise_overrun (c : ResultCode) (s : State) : (raise c s).overrun = s.overrun := rfl
@[simp] theorem raise_result (c : ResultCode) (s : State) : (raise c s).result = c.toByte := rfl
@[simp] theorem raise_flags (c : ResultCode) (s : State) : (raise c s).flags = s.flags := rfl
@[simp] theorem raise_code (c : ResultCode) (s : State) : (raise c s).code = s.code := rfl
@[simp] theorem raise_len (c : ResultCode) (s : State) : (raise c s).len = s.len := rfl
@[simp] theorem raise_chCount (c : ResultCode) (s : State) : (raise c s).chCount = s.chCount := rfl
@[simp] theorem raise_rxcnt (c : ResultCode) (s : State) : (raise c s).rxcnt = s.rxcnt := rfl
@[simp] theorem raise_txcnt (c : ResultCode) (s : State) : (raise c s).txcnt = s.txcnt := rfl
@[simp] theorem raise_rxCode (c : ResultCode) (s : State) : (raise c s).rxCode = s.rxCode := rfl
@[simp] theorem raise_rxLen (c : ResultCode) (s : State) : (raise c s).rxLen = s.rxLen := rfl
@[simp] theorem raise_rxChk (c : ResultCode) (s : State) : (raise c s).rxChk = s.rxChk := rfl
@[simp] theorem raise_calcChk (c : ResultCode) (s : State) : (raise c s).calcChk = s.calcChk := rfl
@[simp] theorem raise_attRoll (c : ResultCode) (s : State) : (raise c s).attRoll = s.attRoll := rfl
@[simp] theorem raise_attPitch (c : ResultCode) (s : State) : (raise c s).attPitch = s.attPitch := rfl
@[simp] theorem raise_attYaw (c : ResultCode) (s : State) : (raise c s).attYaw = s.attYaw := rfl
@[simp] theorem raise_attValid (c : ResultCode) (s : State) : (raise c s).attValid = s.attValid := rfl
@[simp] theorem raise_chValid (c : ResultCode) (s : State) : (raise c s).chValid = s.chValid := rfl
@[simp] theorem raise_chIn (c : ResultCode) (s : State) : (raise c s).chIn = s.chIn := rfl
@[simp] theorem raise_chOut (c : ResultCode) (s : State) : (raise c s).chOut = s.chOut := rfl
@[simp] theorem raise_pending (c : ResultCode) (s : State) : (raise c s).pending = s.pending := rfl
@[simp] theorem raise_turns (c : ResultCode) (s : State) : (raise c s).turns = s.turns := rfl
@[simp] theorem raise_replies (c : ResultCode) (s : State) : (raise c s).replies = s.replies := rfl

/-! ## commonWrites -/

@[simp] theorem commonWrites_mem (c : FrameCheck) (f : BitVec 6) (s : State) : (commonWrites c f s).mem = s.mem := rfl
@[simp] theorem commonWrites_cmd (c : FrameCheck) (f : BitVec 6) (s : State) : (commonWrites c f s).cmd = s.cmd := rfl
@[simp] theorem commonWrites_busy (c : FrameCheck) (f : BitVec 6) (s : State) : (commonWrites c f s).busy = s.busy := rfl
@[simp] theorem commonWrites_overrun (c : FrameCheck) (f : BitVec 6) (s : State) : (commonWrites c f s).overrun = s.overrun := rfl
@[simp] theorem commonWrites_result (c : FrameCheck) (f : BitVec 6) (s : State) : (commonWrites c f s).result = ResultCode.ok.toByte := rfl
@[simp] theorem commonWrites_flags (c : FrameCheck) (f : BitVec 6) (s : State) : (commonWrites c f s).flags = f := rfl
@[simp] theorem commonWrites_code (c : FrameCheck) (f : BitVec 6) (s : State) : (commonWrites c f s).code = s.code := rfl
@[simp] theorem commonWrites_len (c : FrameCheck) (f : BitVec 6) (s : State) : (commonWrites c f s).len = s.len := rfl
@[simp] theorem commonWrites_chCount (c : FrameCheck) (f : BitVec 6) (s : State) : (commonWrites c f s).chCount = s.chCount := rfl
@[simp] theorem commonWrites_rxcnt (c : FrameCheck) (f : BitVec 6) (s : State) : (commonWrites c f s).rxcnt = s.rxcnt := rfl
@[simp] theorem commonWrites_txcnt (c : FrameCheck) (f : BitVec 6) (s : State) : (commonWrites c f s).txcnt = s.txcnt := rfl
@[simp] theorem commonWrites_rxCode (c : FrameCheck) (f : BitVec 6) (s : State) : (commonWrites c f s).rxCode = c.code := rfl
@[simp] theorem commonWrites_rxLen (c : FrameCheck) (f : BitVec 6) (s : State) : (commonWrites c f s).rxLen = c.len := rfl
@[simp] theorem commonWrites_rxChk (c : FrameCheck) (f : BitVec 6) (s : State) : (commonWrites c f s).rxChk = c.rchk := rfl
@[simp] theorem commonWrites_calcChk (c : FrameCheck) (f : BitVec 6) (s : State) : (commonWrites c f s).calcChk = c.sum := rfl
@[simp] theorem commonWrites_attRoll (c : FrameCheck) (f : BitVec 6) (s : State) : (commonWrites c f s).attRoll = s.attRoll := rfl
@[simp] theorem commonWrites_attPitch (c : FrameCheck) (f : BitVec 6) (s : State) : (commonWrites c f s).attPitch = s.attPitch := rfl
@[simp] theorem commonWrites_attYaw (c : FrameCheck) (f : BitVec 6) (s : State) : (commonWrites c f s).attYaw = s.attYaw := rfl
@[simp] theorem commonWrites_attValid (c : FrameCheck) (f : BitVec 6) (s : State) : (commonWrites c f s).attValid = s.attValid := rfl
@[simp] theorem commonWrites_chValid (c : FrameCheck) (f : BitVec 6) (s : State) : (commonWrites c f s).chValid = s.chValid := rfl
@[simp] theorem commonWrites_chIn (c : FrameCheck) (f : BitVec 6) (s : State) : (commonWrites c f s).chIn = s.chIn := rfl
@[simp] theorem commonWrites_chOut (c : FrameCheck) (f : BitVec 6) (s : State) : (commonWrites c f s).chOut = s.chOut := rfl
@[simp] theorem commonWrites_pending (c : FrameCheck) (f : BitVec 6) (s : State) : (commonWrites c f s).pending = s.pending := rfl
@[simp] theorem commonWrites_turns (c : FrameCheck) (f : BitVec 6) (s : State) : (commonWrites c f s).turns = s.turns := rfl
@[simp] theorem commonWrites_replies (c : FrameCheck) (f : BitVec 6) (s : State) : (commonWrites c f s).replies = s.replies := rfl

/-! ## sendFrame -/

@[simp] theorem sendFrame_mem (fr : List Byte) (s : State) : (sendFrame fr s).mem = Memory.writeBytes s.mem txfBase fr := rfl
@[simp] theorem sendFrame_cmd (fr : List Byte) (s : State) : (sendFrame fr s).cmd = s.cmd := rfl
@[simp] theorem sendFrame_busy (fr : List Byte) (s : State) : (sendFrame fr s).busy = s.busy := rfl
@[simp] theorem sendFrame_overrun (fr : List Byte) (s : State) : (sendFrame fr s).overrun = s.overrun := rfl
@[simp] theorem sendFrame_result (fr : List Byte) (s : State) : (sendFrame fr s).result = ResultCode.ok.toByte := rfl
@[simp] theorem sendFrame_flags (fr : List Byte) (s : State) : (sendFrame fr s).flags = 0#6 := rfl
@[simp] theorem sendFrame_code (fr : List Byte) (s : State) : (sendFrame fr s).code = s.code := rfl
@[simp] theorem sendFrame_len (fr : List Byte) (s : State) : (sendFrame fr s).len = s.len := rfl
@[simp] theorem sendFrame_chCount (fr : List Byte) (s : State) : (sendFrame fr s).chCount = s.chCount := rfl
@[simp] theorem sendFrame_rxcnt (fr : List Byte) (s : State) : (sendFrame fr s).rxcnt = s.rxcnt := rfl
@[simp] theorem sendFrame_txcnt (fr : List Byte) (s : State) : (sendFrame fr s).txcnt = BitVec.ofNat 16 fr.length := rfl
@[simp] theorem sendFrame_rxCode (fr : List Byte) (s : State) : (sendFrame fr s).rxCode = s.rxCode := rfl
@[simp] theorem sendFrame_rxLen (fr : List Byte) (s : State) : (sendFrame fr s).rxLen = s.rxLen := rfl
@[simp] theorem sendFrame_rxChk (fr : List Byte) (s : State) : (sendFrame fr s).rxChk = s.rxChk := rfl
@[simp] theorem sendFrame_calcChk (fr : List Byte) (s : State) : (sendFrame fr s).calcChk = s.calcChk := rfl
@[simp] theorem sendFrame_attRoll (fr : List Byte) (s : State) : (sendFrame fr s).attRoll = s.attRoll := rfl
@[simp] theorem sendFrame_attPitch (fr : List Byte) (s : State) : (sendFrame fr s).attPitch = s.attPitch := rfl
@[simp] theorem sendFrame_attYaw (fr : List Byte) (s : State) : (sendFrame fr s).attYaw = s.attYaw := rfl
@[simp] theorem sendFrame_attValid (fr : List Byte) (s : State) : (sendFrame fr s).attValid = s.attValid := rfl
@[simp] theorem sendFrame_chValid (fr : List Byte) (s : State) : (sendFrame fr s).chValid = s.chValid := rfl
@[simp] theorem sendFrame_chIn (fr : List Byte) (s : State) : (sendFrame fr s).chIn = s.chIn := rfl
@[simp] theorem sendFrame_chOut (fr : List Byte) (s : State) : (sendFrame fr s).chOut = s.chOut := rfl
@[simp] theorem sendFrame_pending (fr : List Byte) (s : State) : (sendFrame fr s).pending = s.pending := rfl
@[simp] theorem sendFrame_turns (fr : List Byte) (s : State) : (sendFrame fr s).turns = s.turns := rfl
@[simp] theorem sendFrame_replies (fr : List Byte) (s : State) : (sendFrame fr s).replies = s.replies := rfl

/-! ## warmReset -/

@[simp] theorem warmReset_mem (s : State) : (warmReset s).mem = s.mem := rfl
@[simp] theorem warmReset_cmd (s : State) : (warmReset s).cmd = State.reset.cmd := rfl
@[simp] theorem warmReset_busy (s : State) : (warmReset s).busy = State.reset.busy := rfl
@[simp] theorem warmReset_overrun (s : State) : (warmReset s).overrun = State.reset.overrun := rfl
@[simp] theorem warmReset_result (s : State) : (warmReset s).result = State.reset.result := rfl
@[simp] theorem warmReset_flags (s : State) : (warmReset s).flags = State.reset.flags := rfl
@[simp] theorem warmReset_code (s : State) : (warmReset s).code = State.reset.code := rfl
@[simp] theorem warmReset_len (s : State) : (warmReset s).len = State.reset.len := rfl
@[simp] theorem warmReset_chCount (s : State) : (warmReset s).chCount = State.reset.chCount := rfl
@[simp] theorem warmReset_rxcnt (s : State) : (warmReset s).rxcnt = State.reset.rxcnt := rfl
@[simp] theorem warmReset_txcnt (s : State) : (warmReset s).txcnt = State.reset.txcnt := rfl
@[simp] theorem warmReset_rxCode (s : State) : (warmReset s).rxCode = State.reset.rxCode := rfl
@[simp] theorem warmReset_rxLen (s : State) : (warmReset s).rxLen = State.reset.rxLen := rfl
@[simp] theorem warmReset_rxChk (s : State) : (warmReset s).rxChk = State.reset.rxChk := rfl
@[simp] theorem warmReset_calcChk (s : State) : (warmReset s).calcChk = State.reset.calcChk := rfl
@[simp] theorem warmReset_attRoll (s : State) : (warmReset s).attRoll = State.reset.attRoll := rfl
@[simp] theorem warmReset_attPitch (s : State) : (warmReset s).attPitch = State.reset.attPitch := rfl
@[simp] theorem warmReset_attYaw (s : State) : (warmReset s).attYaw = State.reset.attYaw := rfl
@[simp] theorem warmReset_attValid (s : State) : (warmReset s).attValid = State.reset.attValid := rfl
@[simp] theorem warmReset_chValid (s : State) : (warmReset s).chValid = State.reset.chValid := rfl
@[simp] theorem warmReset_chIn (s : State) : (warmReset s).chIn = State.reset.chIn := rfl
@[simp] theorem warmReset_chOut (s : State) : (warmReset s).chOut = State.reset.chOut := rfl
@[simp] theorem warmReset_pending (s : State) : (warmReset s).pending = State.reset.pending := rfl
@[simp] theorem warmReset_turns (s : State) : (warmReset s).turns = s.turns := rfl
@[simp] theorem warmReset_replies (s : State) : (warmReset s).replies = s.replies := rfl

/-! ## The updates say everything -/

theorem complete_eq (s : State) : complete s = { s with pending := none, busy := false } := rfl
theorem issue_eq (v : Byte) (s : State) : issue v s = { s with cmd := v, pending := some v, busy := true } := rfl
theorem raise_recordEncode_eq (c : ResultCode) (s : State) :
    raise c (recordEncode s) = { s with result := c.toByte, txcnt := 0#16, flags := 0#6 } := rfl
theorem refuse_eq (c : ResultCode) (s : State) :
    raise c (recordDecode s) = { s with result := c.toByte, flags := 0#6 } := rfl

end Sys2Proof.Machine
end

