-- ==== Sys2Proof/Laws/Exec.lean ====
section
/-! SUPPORT. Everything one operation of the codec can do, said once, and the bytes an encoded frame leaves in TXF. -/

namespace Sys2Proof.Machine

/-- The state DECODE_FRAME leaves when it does not raise (41_decode.md R146). -/
def frameDecoded (s : State) : State :=
  commonWrites (frameCheck s) (packFlags false false true (frameCheck s)) (putBytes rxpBase (rxpImage s) s)

/-- The state DECODE_ATTITUDE leaves when it does not raise (41_decode.md R150). -/
def attitudeDecoded (s : State) : State :=
  commonWrites (frameCheck s) (packFlags false false (s.rxb 4 == msgAttitude) (frameCheck s))
    { s with attRoll := rxbHalf s 5, attPitch := rxbHalf s 7, attYaw := rxbHalf s 9, attValid := true }

/-- The state DECODE_CHANNELS leaves when it does not raise (41_decode.md R155). -/
def channelsDecoded (s : State) : State :=
  commonWrites (frameCheck s) (packFlags false (decide (receivedCount s < chAllReceived)) (s.rxb 4 == msgRc) (frameCheck s))
    { s with chOut := rxbChannels s, chValid := true }

/-- The state CHECK_READY leaves when it does not raise (41_decode.md R160). -/
def readyChecked (s : State) : State :=
  commonWrites (frameCheck s) (packFlags (s.rxb readyIndex == readySentinel) false (s.rxb 4 == msgVersion) (frameCheck s)) s

/-- Everything an operation can do to a state, case by case with its guard. -/
inductive OpEffect (s : State) : Instr → State → Prop where
  | nop : OpEffect s .nop { s with result := 0#8 }
  | encodeRaise (h : 255 ≤ s.code.toNat) : OpEffect s .encode (raise .unsupportedVersion (recordEncode s))
  | encode (h : s.code.toNat < 255) :
      OpEffect s .encode (sendFrame (requestFrame (s.code.setWidth 8) (encodePayload s)) s)
  | channelsRaise (h : s.chCount.toNat ≠ 8) : OpEffect s .encodeChannels (raise .invalidCount (recordEncode s))
  | channels (h : s.chCount.toNat = 8) :
      OpEffect s .encodeChannels (sendFrame (requestFrame msgSetRc (channelPayload s)) s)
  | frameShort (h : receivedCount s < 6 + receivedLen s) : OpEffect s .decodeFrame (refuseDecode .truncated s)
  | frameCode (h : 6 + receivedLen s ≤ receivedCount s) (hc : s.rxb 4 = 0xFF#8) :
      OpEffect s .decodeFrame (refuseDecode .unsupportedVersion s)
  | frame (h : 6 + receivedLen s ≤ receivedCount s) (hc : s.rxb 4 ≠ 0xFF#8) : OpEffect s .decodeFrame (frameDecoded s)
  | attitudeShort (h : receivedCount s < 12) : OpEffect s .decodeAttitude (refuseDecode .truncated s)
  | attitude (h : 12 ≤ receivedCount s) : OpEffect s .decodeAttitude (attitudeDecoded s)
  | chShort (h : receivedCount s < 16) : OpEffect s .decodeChannels (refuseDecode .truncated s)
  | ch (h : 16 ≤ receivedCount s) : OpEffect s .decodeChannels (channelsDecoded s)
  | readyShort (h : receivedCount s < 12) : OpEffect s .checkReady (refuseDecode .truncated s)
  | ready (h : 12 ≤ receivedCount s) : OpEffect s .checkReady (readyChecked s)

theorem execNop_effect (s : State) : ∃ t, exec .nop s = .next t ∧ OpEffect s .nop t := ⟨_, rfl, .nop⟩

theorem execEncode_effect (s : State) : ∃ t, exec .encode s = .next t ∧ OpEffect s .encode t := by
  show ∃ t, execEncode s = .next t ∧ _
  unfold execEncode
  split
  · exact ⟨_, rfl, .encodeRaise ‹_›⟩
  · exact ⟨_, rfl, .encode (Nat.lt_succ_of_le (Nat.le_of_not_lt ‹_›))⟩

theorem execEncodeChannels_effect (s : State) : ∃ t, exec .encodeChannels s = .next t ∧ OpEffect s .encodeChannels t := by
  show ∃ t, execEncodeChannels s = .next t ∧ _
  unfold execEncodeChannels
  split
  · exact ⟨_, rfl, .channelsRaise ‹_›⟩
  · exact ⟨_, rfl, .channels (Classical.not_not.1 ‹_›)⟩

theorem execDecodeFrame_effect (s : State) : ∃ t, exec .decodeFrame s = .next t ∧ OpEffect s .decodeFrame t := by
  show ∃ t, execDecodeFrame s = .next t ∧ _
  unfold execDecodeFrame
  split
  · exact ⟨_, rfl, .frameShort (Nat.lt_of_lt_of_le ‹_› (Nat.le_add_right _ _))⟩
  · split
    · exact ⟨_, rfl, .frameShort ‹_›⟩
    · split
      · exact ⟨_, rfl, .frameCode (Nat.le_of_not_lt ‹_›) ‹_›⟩
      · exact ⟨_, rfl, .frame (Nat.le_of_not_lt ‹_›) ‹_›⟩

theorem execDecodeAttitude_effect (s : State) : ∃ t, exec .decodeAttitude s = .next t ∧ OpEffect s .decodeAttitude t := by
  show ∃ t, execDecodeAttitude s = .next t ∧ _
  unfold execDecodeAttitude
  split
  · exact ⟨_, rfl, .attitudeShort ‹_›⟩
  · exact ⟨_, rfl, .attitude (Nat.le_of_not_lt ‹_›)⟩

theorem execDecodeChannels_effect (s : State) : ∃ t, exec .decodeChannels s = .next t ∧ OpEffect s .decodeChannels t := by
  show ∃ t, execDecodeChannels s = .next t ∧ _
  unfold execDecodeChannels
  split
  · exact ⟨_, rfl, .chShort ‹_›⟩
  · exact ⟨_, rfl, .ch (Nat.le_of_not_lt ‹_›)⟩

theorem execCheckReady_effect (s : State) : ∃ t, exec .checkReady s = .next t ∧ OpEffect s .checkReady t := by
  show ∃ t, execCheckReady s = .next t ∧ _
  unfold execCheckReady
  split
  · exact ⟨_, rfl, .readyShort ‹_›⟩
  · exact ⟨_, rfl, .ready (Nat.le_of_not_lt ‹_›)⟩

/-- The spec lemma of an operation, for every CMD8 byte that names one. -/
theorem exec_effect {v : Byte} {i : Instr} (h : decodeCmd8 v = .ok i) (s : State) :
    ∃ t, exec i s = .next t ∧ OpEffect s i t := by
  rcases decodeCmd8_cases v with ⟨-, h'⟩ | ⟨-, h'⟩ | ⟨-, h'⟩ | ⟨-, h'⟩ | ⟨-, h'⟩ | ⟨-, h'⟩ | ⟨-, h'⟩ | ⟨-, h'⟩
  all_goals (rw [h'] at h; cases h)
  · exact execNop_effect s
  · exact execEncode_effect s
  · exact execEncodeChannels_effect s
  · exact execDecodeFrame_effect s
  · exact execDecodeAttitude_effect s
  · exact execDecodeChannels_effect s
  · exact execCheckReady_effect s

/-! ## What an encode leaves in TXF -/

theorem txf_sendFrame (fr : List Byte) (s : State) (i : Nat) (h : i < fr.length) : (sendFrame fr s).txf i = fr[i] :=
  byteAt_putBytes_inside fr s txfBase i h

theorem byteAt_sendFrame_outside (fr : List Byte) (s : State) (a : Nat) (h : a < txfBase ∨ txfBase + fr.length ≤ a) :
    (sendFrame fr s).byteAt a = s.byteAt a :=
  (byteAt_congr (s := putBytes txfBase fr s) (t := sendFrame fr s) rfl a).trans (byteAt_putBytes_outside fr s h)

/-! ## What DECODE_FRAME leaves in RXP -/

theorem rxp_frameDecoded (s : State) (i : Nat) (h : i < 256) :
    (frameDecoded s).rxp i = if i < receivedLen s then s.rxb (5 + i) else 0#8 := by
  have hi : i < (rxpImage s).length := by rwa [length_rxpImage]
  rw [← getElem_rxpImage s i hi]
  exact byteAt_putBytes_inside (rxpImage s) s rxpBase i hi

theorem byteAt_frameDecoded_outside (s : State) (a : Nat) (h : a < rxpBase ∨ rxpBase + 256 ≤ a) :
    (frameDecoded s).byteAt a = s.byteAt a :=
  (byteAt_congr (s := putBytes rxpBase (rxpImage s) s) (t := frameDecoded s) rfl a).trans
    (byteAt_putBytes_outside _ s (by rwa [length_rxpImage]))

/-- Below offset 0x400 stand TXP, the registers' region and RXB: no operation stores there (42_control.md R173). -/
theorem byteAt_opEffect {s t : State} {i : Instr} (he : OpEffect s i t) {a : Nat} (ha : a < 0x400) :
    t.byteAt a = s.byteAt a := by
  cases he with
  | encode => exact byteAt_sendFrame_outside _ _ _ (.inl ha)
  | channels => exact byteAt_sendFrame_outside _ _ _ (.inl ha)
  | frame => exact byteAt_frameDecoded_outside _ _ (.inl (by simp only [rxpBase]; omega))
  | _ => exact byteAt_congr rfl a

end Sys2Proof.Machine
end

