-- ==== Sys2Proof/Laws/Window.lean ====
section
/-! SUPPORT. The window's map (20_memory.md R60, 10_state.md R27), and everything one host write can do. -/

namespace Sys2Proof.Machine

/-! ## The map -/

/-- Where a register stands (10_state.md R27). -/
def regOffset : Reg → Nat
  | .cmd => 0x100 | .status => 0x101 | .result => 0x102 | .flags => 0x103 | .code => 0x104 | .len => 0x106
  | .chCount => 0x107 | .rxcnt => 0x108 | .txcnt => 0x10A | .rxCode => 0x10C | .rxLen => 0x10D | .rxChk => 0x10E
  | .calcChk => 0x10F | .attRoll => 0x110 | .attPitch => 0x112 | .attYaw => 0x114 | .valid => 0x116
  | .chIn i => 0x120 + 2 * i.val
  | .chOut i => 0x130 + 2 * i.val

/-- How many bytes a register has (10_state.md R27). -/
def regBytes : Reg → Nat
  | .code | .rxcnt | .txcnt | .attRoll | .attPitch | .attYaw | .chIn _ | .chOut _ => 2
  | .cmd | .status | .result | .flags | .len | .chCount | .rxCode | .rxLen | .rxChk | .calcChk | .valid => 1

theorem regMap_rows : ∀ r ∈ regMap, r.offset = regOffset r.reg ∧ r.bytes = regBytes r.reg := by decide

/-- A register byte the map finds stands where the register does. -/
theorem locateReg_some {a : Nat} {r : Reg} {k : Nat} (h : locateReg a = some (r, k)) :
    a = regOffset r + k ∧ k < regBytes r := by
  unfold locateReg at h
  split at h
  · rename_i row hrow
    have hm := regMap_rows row (List.mem_of_find?_eq_some hrow)
    have hp := List.find?_some hrow
    simp only [Bool.and_eq_true, decide_eq_true_eq] at hp
    obtain ⟨rfl, rfl⟩ : row.reg = r ∧ a - row.offset = k := by simpa using h
    omega
  · cases h

/-- An offset of the register region that names no register is reserved (10_state.md R45). -/
theorem locateReg_none {a : Nat} (h1 : 0x100 ≤ a) (h : locateReg a = none) : 0x117 ≤ a ∧ a ≤ 0x11F ∨ 0x140 ≤ a := by
  unfold locateReg at h
  split at h
  · cases h
  · rename_i hn
    simp only [List.find?_eq_none, regMap, singleRegs, chInRegs, chOutRegs, List.mem_append, List.mem_cons,
      List.not_mem_nil, or_false, or_imp, forall_and, forall_eq, Bool.and_eq_true,
      decide_eq_true_eq] at hn
    omega

theorem locate_txp {off : Offset} (h : off.toNat < 0x100) : locate off = .txp off.toNat := by
  simp [locate, h]

theorem locate_rxb {off : Offset} (h1 : 0x200 ≤ off.toNat) (h2 : off.toNat < 0x400) :
    locate off = .rxb (off.toNat - 0x200) := by
  simp [locate, show ¬ off.toNat < 0x100 by omega, show ¬ off.toNat < 0x200 by omega, h2]

theorem locate_txf {off : Offset} (h1 : 0x400 ≤ off.toNat) (h2 : off.toNat < 0x505) :
    locate off = .txf (off.toNat - 0x400) := by
  simp [locate, show ¬ off.toNat < 0x100 by omega, show ¬ off.toNat < 0x200 by omega,
    show ¬ off.toNat < 0x400 by omega, h2]

theorem locate_rxp {off : Offset} (h1 : 0x600 ≤ off.toNat) (h2 : off.toNat < 0x700) :
    locate off = .rxp (off.toNat - 0x600) := by
  simp [locate, show ¬ off.toNat < 0x100 by omega, show ¬ off.toNat < 0x200 by omega,
    show ¬ off.toNat < 0x400 by omega, show ¬ off.toNat < 0x505 by omega, show ¬ off.toNat < 0x600 by omega, h2]

theorem locate_reserved {off : Offset} (h : 0x505 ≤ off.toNat ∧ off.toNat < 0x600 ∨ 0x700 ≤ off.toNat) :
    locate off = .reserved := by
  have h0 : ¬ off.toNat < 0x100 ∧ ¬ off.toNat < 0x200 ∧ ¬ off.toNat < 0x400 ∧ ¬ off.toNat < 0x505 := by omega
  rcases h with h | h
  · simp [locate, h0.1, h0.2.1, h0.2.2.1, h0.2.2.2, h.2]
  · simp [locate, h0.1, h0.2.1, h0.2.2.1, h0.2.2.2, show ¬ off.toNat < 0x600 by omega, show ¬ off.toNat < 0x700 by omega]

theorem locate_regs {off : Offset} (h1 : 0x100 ≤ off.toNat) (h2 : off.toNat < 0x200) :
    locate off = match locateReg off.toNat with
      | some (r, k) => .reg r k
      | none => .reserved := by
  have h0 : ¬ off.toNat < 0x100 := by omega
  cases h : locateReg off.toNat <;> simp only [locate, h0, h2, h, if_true, if_false]

/-- What a location says about its offset. -/
def locAt (off : Offset) : Loc → Prop
  | .txp i => off.toNat = i ∧ i < 0x100
  | .rxb i => off.toNat = 0x200 + i ∧ i < 0x200
  | .txf i => off.toNat = 0x400 + i ∧ i < 261
  | .rxp i => off.toNat = 0x600 + i ∧ i < 0x100
  | .reg r k => off.toNat = regOffset r + k ∧ k < regBytes r
  | .reserved => 0x117 ≤ off.toNat ∧ off.toNat ≤ 0x11F ∨ 0x140 ≤ off.toNat ∧ off.toNat ≤ 0x1FF ∨
      0x505 ≤ off.toNat ∧ off.toNat ≤ 0x5FF ∨ 0x700 ≤ off.toNat

/-- The map is right about every offset: each location it answers stands at that offset. -/
theorem locate_at (off : Offset) : locAt off (locate off) := by
  by_cases h1 : off.toNat < 0x100
  · rw [locate_txp h1]; exact ⟨rfl, h1⟩
  by_cases h2 : off.toNat < 0x200
  · rw [locate_regs (by omega) h2]
    cases h : locateReg off.toNat with
    | none =>
      rcases locateReg_none (by omega) h with h | h
      · exact .inl h
      · exact .inr (.inl ⟨h, by omega⟩)
    | some p => exact locateReg_some h
  by_cases h3 : off.toNat < 0x400
  · rw [locate_rxb (by omega) h3]; exact ⟨by omega, by omega⟩
  by_cases h4 : off.toNat < 0x505
  · rw [locate_txf (by omega) h4]; exact ⟨by omega, by omega⟩
  by_cases h5 : off.toNat < 0x600
  · rw [locate_reserved (by omega)]; exact .inr (.inr (.inl ⟨by omega, by omega⟩))
  by_cases h6 : off.toNat < 0x700
  · rw [locate_rxp (by omega) h6]; exact ⟨by omega, by omega⟩
  · rw [locate_reserved (by omega)]; exact .inr (.inr (.inr (by omega)))

/-- The four gaps of the window, and nothing else, are reserved (20_memory.md R60). -/
theorem locate_gap {off : Offset} (h : 0x117 ≤ off.toNat ∧ off.toNat ≤ 0x11F ∨ 0x140 ≤ off.toNat ∧ off.toNat ≤ 0x1FF ∨
    0x505 ≤ off.toNat ∧ off.toNat ≤ 0x5FF ∨ 0x700 ≤ off.toNat) : locate off = .reserved := by
  have hat := locate_at off
  cases hl : locate off with
  | reserved => rfl
  | reg r k =>
    rw [hl] at hat
    obtain ⟨h1, h2⟩ : off.toNat = regOffset r + k ∧ k < regBytes r := hat
    cases r <;> simp only [regOffset, regBytes] at h1 h2 <;> omega
  | _ =>
    rw [hl] at hat
    have h1 := hat.1
    have h2 := hat.2
    omega

/-- A write needs an idle block exactly at TXP, RXB, CMD, CODE, LEN, CH_COUNT, RXCNT and CH_IN (20_memory.md R67). -/
theorem needsIdle_iff (off : Offset) : needsIdle off = true ↔
    (off.toNat < 0x100 ∨ (0x200 ≤ off.toNat ∧ off.toNat < 0x400)) ∨ off.toNat = 0x100 ∨
      (0x104 ≤ off.toNat ∧ off.toNat ≤ 0x109) ∨ (0x120 ≤ off.toNat ∧ off.toNat ≤ 0x12F) := by
  have hat := locate_at off
  unfold needsIdle
  cases hl : locate off with
  | reg r k =>
    rw [hl] at hat
    obtain ⟨h1, h2⟩ : off.toNat = regOffset r + k ∧ k < regBytes r := hat
    cases r <;> simp only [regOffset, regBytes] at h1 h2 <;> simp <;> omega
  | reserved =>
    rw [hl] at hat
    simp only [locAt] at hat
    simp
    omega
  | _ =>
    rw [hl] at hat
    have h1 := hat.1
    have h2 := hat.2
    simp
    omega

theorem locate_chIn (i : Fin 8) : locate (BitVec.ofNat 12 (0x120 + 2 * i.val)) = .reg (.chIn i) 0 ∧
    locate (BitVec.ofNat 12 (0x121 + 2 * i.val)) = .reg (.chIn i) 1 := by
  revert i
  decide

theorem locate_chOut (i : Fin 8) : locate (BitVec.ofNat 12 (0x130 + 2 * i.val)) = .reg (.chOut i) 0 ∧
    locate (BitVec.ofNat 12 (0x131 + 2 * i.val)) = .reg (.chOut i) 1 := by
  revert i
  decide

theorem memRead_reg {s : State} {off : Offset} {r : Reg} {k : Nat} (h : locate off = .reg r k) :
    memRead s off = getByte (readReg s r) k := by
  unfold memRead
  rw [h]

theorem memWrite_reg {s : State} {off : Offset} {v : Byte} {r : Reg} {k : Nat} (h : locate off = .reg r k) :
    memWrite s off v = writeReg s r k v := by
  unfold memWrite
  rw [h]

theorem whenIdle_idle {s : State} (h : s.busy = false) (t : State) : whenIdle s t = t := by
  unfold whenIdle
  rw [h]
  rfl

/-! ## Bytes of a 16-bit register -/

/-- An 8-bit register read through the 16-bit path. -/
theorem getByte_setWidth (b : Byte) : getByte (b.setWidth 16) 0 = b := by
  unfold getByte
  ext i hi
  simp [hi]
  intro h
  omega

theorem setByte_zero (h : Half) (v : Byte) : setByte h 0 v = getByte h 1 ++ v := rfl
theorem setByte_one (h : Half) (v : Byte) : setByte h 1 v = v ++ getByte h 0 := rfl

theorem setByte_setByte_same (h : Half) (k : Nat) (u v : Byte) : setByte (setByte h k u) k v = setByte h k v := by
  unfold setByte
  split
  · rw [getByte]
    exact congrArg (· ++ v) BitVec.extractLsb'_append_eq_left
  · rw [getByte]
    exact congrArg (v ++ ·) BitVec.extractLsb'_append_eq_right

theorem setByte_setByte_01 (h : Half) (u v : Byte) : setByte (setByte h 0 u) 1 v = v ++ u := by
  rw [setByte_one, setByte_zero, getByte]
  exact congrArg (v ++ ·) BitVec.extractLsb'_append_eq_right

theorem setByte_setByte_10 (h : Half) (u v : Byte) : setByte (setByte h 1 u) 0 v = u ++ v := by
  rw [setByte_zero, setByte_one, getByte]
  exact congrArg (· ++ v) BitVec.extractLsb'_append_eq_left

/-! ## Everything one host write can do -/

/-- The effect of a host write on an operand location, when the block is idle (20_memory.md R64, R66). -/
inductive Accepted (s : State) (off : Offset) (v : Byte) : State → Prop where
  | buffer (h : off.toNat < 0x100 ∨ 0x200 ≤ off.toNat ∧ off.toNat < 0x400) : Accepted s off v (putBytes off.toNat [v] s)
  | cmd (h : off.toNat = 0x100) : Accepted s off v (issue v s)
  | code (k : Nat) (h : off.toNat = 0x104 + k) : Accepted s off v { s with code := setByte s.code k v }
  | len (h : off.toNat = 0x106) : Accepted s off v { s with len := v }
  | chCount (h : off.toNat = 0x107) : Accepted s off v { s with chCount := v }
  | rxcnt (k : Nat) (h : off.toNat = 0x108 + k) : Accepted s off v { s with rxcnt := setByte s.rxcnt k v }
  | chIn (i : Fin 8) (k : Nat) (h : off.toNat = 0x120 + 2 * i.val + k) :
      Accepted s off v { s with chIn := s.chIn.set i (setByte s.chIn[i] k v) }

/-- A host write does one of four things: it is lost, it is accepted, it reaches STATUS, or it does nothing
(20_memory.md R64, R65, R67). -/
inductive WriteEffect (s : State) (off : Offset) (v : Byte) : State → Prop where
  | lost (hi : needsIdle off = true) (hb : s.busy = true) : WriteEffect s off v { s with overrun := true }
  | accepted {t : State} (hi : needsIdle off = true) (hb : s.busy = false) (ha : Accepted s off v t) :
      WriteEffect s off v t
  | status (h : off = 0x101#12) (hi : needsIdle off = false) : WriteEffect s off v (writeStatus v s)
  | ignored (hi : needsIdle off = false) : WriteEffect s off v s

theorem whenIdle_effect {s t : State} {off : Offset} {v : Byte} (hi : needsIdle off = true) (ha : Accepted s off v t) :
    WriteEffect s off v (whenIdle s t) := by
  unfold whenIdle
  split
  · rename_i hb; exact .lost hi hb
  · rename_i hb; exact .accepted hi (by simpa using hb) ha

/-- The spec lemma of a host write. -/
theorem memWrite_effect (s : State) (off : Offset) (v : Byte) : WriteEffect s off v (memWrite s off v) := by
  have hat := locate_at off
  unfold memWrite
  have hidle : needsIdle off = needsIdle off := rfl
  conv at hidle => rhs; unfold needsIdle
  cases hl : locate off with
  | txp i =>
    rw [hl] at hat hidle
    have := whenIdle_effect hidle (Accepted.buffer (s := s) (v := v) (off := off) (.inl (by have := hat.1; have := hat.2; omega)))
    rw [hat.1] at this
    simpa [txpBase] using this
  | rxb i =>
    rw [hl] at hat hidle
    have := whenIdle_effect hidle (Accepted.buffer (s := s) (v := v) (off := off) (.inr (by have := hat.1; have := hat.2; omega)))
    rw [hat.1] at this
    exact this
  | txf i => rw [hl] at hidle; exact .ignored hidle
  | rxp i => rw [hl] at hidle; exact .ignored hidle
  | reserved => rw [hl] at hidle; exact .ignored hidle
  | reg r k =>
    rw [hl] at hat hidle
    obtain ⟨hoff, hk⟩ : off.toNat = regOffset r + k ∧ k < regBytes r := hat
    cases r with
    | cmd => exact whenIdle_effect hidle (.cmd (by simp only [regOffset, regBytes] at hoff hk; omega))
    | status =>
      refine .status (BitVec.eq_of_toNat_eq ?_) hidle
      simp only [regOffset, regBytes] at hoff hk
      rw [hoff, show k = 0 by omega]
      rfl
    | code => exact whenIdle_effect hidle (.code k hoff)
    | len => exact whenIdle_effect hidle (.len (by simp only [regOffset, regBytes] at hoff hk; omega))
    | chCount => exact whenIdle_effect hidle (.chCount (by simp only [regOffset, regBytes] at hoff hk; omega))
    | rxcnt => exact whenIdle_effect hidle (.rxcnt k hoff)
    | chIn i => exact whenIdle_effect hidle (.chIn i k hoff)
    | _ => exact .ignored hidle

end Sys2Proof.Machine
end

