-- ==== Sys2Proof/Laws/Step.lean ====
section
/-! SUPPORT. Everything one step can do, said once. -/

namespace Sys2Proof.Machine

/-- The state a step's event finds: the turn that gave it is used up. -/
def State.turnTaken (s : State) : State := { s with turns := s.turns.tail }

theorem State.turnTaken_nil {s : State} (h : s.turns = []) : s.turnTaken = s := by
  unfold State.turnTaken
  rw [h]
  exact congrArg (fun l => { s with turns := l }) h.symm

theorem step_host {s : State} {w : BusWord} {rest : List Turn} (h : s.turns = .host w :: rest) :
    step s = exec (decodeBus21 w) { s with turns := rest } := by
  unfold step
  rw [h]
  rfl

theorem step_codec {s : State} (h : s.turns = [] ∨ ∃ rest, s.turns = .codec :: rest) :
    step s = codecTurn s.turnTaken := by
  rcases h with h | ⟨rest, h⟩
  · rw [State.turnTaken_nil h]
    unfold step
    rw [h]
  · unfold step State.turnTaken
    rw [h]
    rfl

theorem step_reset {s : State} {rest : List Turn} (h : s.turns = .reset :: rest) :
    step s = .next (warmReset { s with turns := rest }) := by
  unfold step
  rw [h]
  rfl

/-- Everything a step can do, by the agent that moves. -/
inductive StepEffect (s : State) : State → Prop where
  | idle (hn : s.turns = [] ∨ s.turns.head? = some .codec) (hp : s.pending = none) : StepEffect s s.turnTaken
  | illegal (hn : s.turns = [] ∨ s.turns.head? = some .codec) (v : Byte) (hp : s.pending = some v) (hv : 7 ≤ v.toNat) :
      StepEffect s (complete (illegalOperation s.turnTaken))
  | operation (hn : s.turns = [] ∨ s.turns.head? = some .codec) (v : Byte) (i : Instr) (t : State)
      (hp : s.pending = some v) (hd : decodeCmd8 v = .ok i) (he : OpEffect s.turnTaken i t) : StepEffect s (complete t)
  | write (off : Offset) (v : Byte) (hn : s.turns.head? = some (.host (encodeWr8 off v))) (t : State)
      (he : WriteEffect s.turnTaken off v t) : StepEffect s t
  | read (off : Offset) (w : BusWord) (hn : s.turns.head? = some (.host w)) :
      StepEffect s (reply (memRead s.turnTaken off) s.turnTaken)
  | reset (hn : s.turns.head? = some .reset) : StepEffect s (warmReset s.turnTaken)

theorem codecTurn_effect (s : State) (hn : s.turns = [] ∨ s.turns.head? = some .codec) :
    ∃ t, codecTurn s.turnTaken = .next t ∧ StepEffect s t := by
  unfold codecTurn
  rw [show s.turnTaken.pending = s.pending from rfl]
  cases hp : s.pending with
  | none => exact ⟨_, rfl, .idle hn hp⟩
  | some v =>
    have op : ∀ i, decodeCmd8 v = .ok i → (∃ t, exec i s.turnTaken = .next t ∧ OpEffect s.turnTaken i t) →
        ∃ t, completing (exec i s.turnTaken) = .next t ∧ StepEffect s t := by
      rintro i hd ⟨t, he, ho⟩
      exact ⟨complete t, by rw [he]; rfl, .operation hn v i t hp hd ho⟩
    rcases decodeCmd8_cases v with ⟨-, h⟩ | ⟨-, h⟩ | ⟨-, h⟩ | ⟨-, h⟩ | ⟨-, h⟩ | ⟨-, h⟩ | ⟨-, h⟩ | ⟨hv, h⟩
    all_goals simp only [h]
    · exact op _ h (execNop_effect _)
    · exact op _ h (execEncode_effect _)
    · exact op _ h (execEncodeChannels_effect _)
    · exact op _ h (execDecodeFrame_effect _)
    · exact op _ h (execDecodeAttitude_effect _)
    · exact op _ h (execDecodeChannels_effect _)
    · exact op _ h (execCheckReady_effect _)
    · exact ⟨_, rfl, .illegal hn v hp hv⟩

/-- The spec lemma of a step: it always answers a next state, and this is everything it can do. -/
theorem step_effect (s : State) : ∃ t, step s = .next t ∧ StepEffect s t := by
  unfold step
  have hs : ∀ l, s.turns = l → s.turnTaken = { s with turns := l.tail } := by rintro l rfl; rfl
  split
  · rename_i h
    have : s.turnTaken = s := by rw [hs _ h]; exact congrArg (fun l => { s with turns := l }) h.symm
    rw [← this]
    obtain ⟨t, h1, h2⟩ := codecTurn_effect s (.inl h)
    exact ⟨t, h1, this.symm ▸ h2⟩
  · rename_i rest h
    rw [← show s.turnTaken = { s with turns := rest } from hs _ h]
    exact codecTurn_effect s (.inr (by rw [h]; rfl))
  · rename_i w rest h
    rw [← show s.turnTaken = { s with turns := rest } from hs _ h]
    rcases decodeBus21_cases w with ⟨off, v, hd, hw⟩ | ⟨off, hd⟩
    · exact ⟨memWrite s.turnTaken off v, by rw [hostTurn, hd]; rfl,
        .write off v (by rw [h, hw]; rfl) _ (memWrite_effect _ _ _)⟩
    · exact ⟨_, by rw [hostTurn, hd]; rfl, .read off w (by rw [h]; rfl)⟩
  · rename_i rest h
    rw [← show s.turnTaken = { s with turns := rest } from hs _ h]
    exact ⟨_, rfl, .reset (by rw [h]; rfl)⟩

end Sys2Proof.Machine
end

