-- ==== Sys2Proof/Laws/Invariant.lean ====
section
/-! SUPPORT. How the invariant of Safety.lean is put together from its parts, and runs taken one step at a time. -/

namespace Sys2Proof.Machine

theorem inBuffers_iff (a : Nat) : inBuffers a = true ↔
    a < 0x100 ∨ (0x200 ≤ a ∧ a < 0x400) ∨ (0x400 ≤ a ∧ a < 0x505) ∨ (0x600 ≤ a ∧ a < 0x700) := by
  simp only [inBuffers, txpBase, txpSize, rxbBase, rxbSize, txfBase, txfSize, rxpBase, rxpSize, Bool.or_eq_true,
    Bool.and_eq_true, decide_eq_true_eq]
  omega

theorem inv_intro {t : State} (hm : Memory.wf t.mem) (hb : t.busy = t.pending.isSome) (hc : ∀ v ∈ t.pending, t.cmd = v)
    (ht : t.txcnt.toNat = 0 ∨ 6 ≤ t.txcnt.toNat ∧ t.txcnt.toNat ≤ 261) (hr : t.result.toNat ≤ 4)
    (hf : (t.flags.getLsbD 1 = true → t.flags.getLsbD 0 = true) ∧
      ¬(t.flags.getLsbD 4 = true ∧ t.flags.getLsbD 5 = true)) : t.Inv := ⟨hm, hb, hc, ht, hr, hf⟩

theorem resultCode_le (c : ResultCode) : c.toByte.toNat ≤ 4 := by cases c <;> decide

/-- A FLAGS value that a decode packs is legal unless it says SHORT and READY at once. -/
theorem packFlags_legal {r sh : Bool} (co : Bool) (s : State) (h : ¬(sh = true ∧ r = true)) :
    ((packFlags r sh co (frameCheck s)).getLsbD 1 = true → (packFlags r sh co (frameCheck s)).getLsbD 0 = true) ∧
    ¬((packFlags r sh co (frameCheck s)).getLsbD 4 = true ∧ (packFlags r sh co (frameCheck s)).getLsbD 5 = true) := by
  obtain ⟨h0, h1, -, -, h4, h5⟩ := packFlags_bits r sh co (frameCheck s)
  rw [h0, h1, h4, h5]
  exact ⟨frameCheck_resp s, h⟩

theorem wf_sendFrame {s : State} (h : Memory.wf s.mem) (fr : List Byte) (hl : fr.length ≤ 261) :
    Memory.wf (sendFrame fr s).mem :=
  Memory.wf_writeBytes h fun i hi => (inBuffers_iff _).2 (by simp only [txfBase]; omega)

theorem wf_frameDecoded {s : State} (h : Memory.wf s.mem) : Memory.wf (frameDecoded s).mem :=
  Memory.wf_writeBytes h fun i hi => (inBuffers_iff _).2 (by
    rw [length_rxpImage] at hi
    simp only [rxpBase]
    omega)

/-- Every memory an operation leaves is canonical. -/
theorem wf_opEffect {s t : State} {i : Instr} (h : Memory.wf s.mem) (he : OpEffect s i t) : Memory.wf t.mem := by
  cases he with
  | encode =>
    exact wf_sendFrame h _ (by rw [length_requestFrame, length_encodePayload]; have := s.len.isLt; omega)
  | channels => exact wf_sendFrame h _ (by rw [length_requestFrame, length_channelPayload]; omega)
  | frame => exact wf_frameDecoded h
  | _ => exact h

/-- Every memory a host write leaves is canonical. -/
theorem wf_writeEffect {s t : State} {off : Offset} {v : Byte} (h : Memory.wf s.mem) (he : WriteEffect s off v t) :
    Memory.wf t.mem := by
  cases he with
  | accepted _ _ ha =>
    cases ha with
    | buffer ho => exact Memory.wf_write h ((inBuffers_iff _).2 (by omega)) v
    | _ => exact h
  | status => unfold writeStatus; split <;> exact h
  | _ => exact h

/-- No operation and no host write touches the turns still to come. -/
theorem turns_opEffect {s t : State} {i : Instr} (he : OpEffect s i t) : t.turns = s.turns := by cases he <;> rfl

theorem turns_writeEffect {s t : State} {off : Offset} {v : Byte} (he : WriteEffect s off v t) : t.turns = s.turns := by
  cases he with
  | accepted _ _ ha => cases ha <;> rfl
  | status => unfold writeStatus; split <;> rfl
  | _ => rfl

/-! ## Runs -/

theorem run_zero (s : State) : core.run 0 s = .next s := rfl

theorem run_of_step (M : Host.Core) (k : Nat) {s u : M.State} (hu : M.step s = .next u) : M.run (k + 1) s = M.run k u := by
  simp only [Host.Core.run, hu]

theorem run_succ (k : Nat) {s u : State} (hu : step s = .next u) : core.run (k + 1) s = core.run k u :=
  run_of_step core k hu

/-- What every step keeps, every run keeps. -/
theorem run_induction {P : State → Prop} (hP : ∀ s t, P s → step s = .next t → P t) (k : Nat) {s t : State} (h : P s)
    (hr : core.run k s = .next t) : P t := by
  induction k generalizing s with
  | zero =>
    rw [run_zero] at hr
    cases hr
    exact h
  | succ k ih =>
    obtain ⟨u, hu, -⟩ := step_effect s
    rw [run_succ k hu] at hr
    exact ih (hP s u h hu) hr

end Sys2Proof.Machine
end

