-- ==== Sys2Proof/Laws/PerInstr.lean ====
section
/-! SUPPORT. One lemma per instruction: its encoding matches its row of spec/opcode_table.json. -/

namespace Sys2Proof.Laws

/-- The row's `mask` and `match`, in the width of the instruction's format (spec/opcode_table.json). -/
def row : Instr → CodeWord × CodeWord
  | .nop => (.cmd8 0xFF#8, .cmd8 0x00#8)
  | .encode => (.cmd8 0xFF#8, .cmd8 0x01#8)
  | .encodeChannels => (.cmd8 0xFF#8, .cmd8 0x02#8)
  | .decodeFrame => (.cmd8 0xFF#8, .cmd8 0x03#8)
  | .decodeAttitude => (.cmd8 0xFF#8, .cmd8 0x04#8)
  | .decodeChannels => (.cmd8 0xFF#8, .cmd8 0x05#8)
  | .checkReady => (.cmd8 0xFF#8, .cmd8 0x06#8)
  | .wr8 _ _ => (.bus21 0x100000#21, .bus21 0x100000#21)
  | .rd8 _ => (.bus21 0x100000#21, .bus21 0x000000#21)

/-- Whether a word has the row's bits where the row's mask is set. -/
def matchesRow : CodeWord → CodeWord × CodeWord → Bool
  | .cmd8 b, (.cmd8 mask, .cmd8 value) => b &&& mask == value
  | .bus21 w, (.bus21 mask, .bus21 value) => w &&& mask == value
  | _, _ => false

/-- The encoding of a well-formed instruction is of its row's format and matches its row, and is written as the spec
writes it. -/
def TableRow.Statement (i : Instr) : Prop := matchesRow (encode i) (row i) = true ∧ (encode i).wf = true

theorem TableRow.nop : TableRow.Statement .nop := ⟨by decide, by decide⟩

theorem TableRow.encode : TableRow.Statement .encode := ⟨by decide, by decide⟩

theorem TableRow.encodeChannels : TableRow.Statement .encodeChannels := ⟨by decide, by decide⟩

theorem TableRow.decodeFrame : TableRow.Statement .decodeFrame := ⟨by decide, by decide⟩

theorem TableRow.decodeAttitude : TableRow.Statement .decodeAttitude := ⟨by decide, by decide⟩

theorem TableRow.decodeChannels : TableRow.Statement .decodeChannels := ⟨by decide, by decide⟩

theorem TableRow.checkReady : TableRow.Statement .checkReady := ⟨by decide, by decide⟩

/-- The WE bit alone decides the row of a host transaction. -/
theorem and_we (w : BusWord) : w &&& 0x100000#21 = if w.getLsbD 20 then 0x100000#21 else 0x000000#21 := by
  apply BitVec.eq_of_getLsbD_eq
  intro i hi
  by_cases h : i = 20
  · subst h
    rw [BitVec.getLsbD_and]
    cases w.getLsbD 20 <;> rfl
  · have : (0x100000#21).getLsbD i = false := by
      interval_cases i <;> first | rfl | omega
    split <;> simp [this]

theorem TableRow.wr8 (off : Offset) (data : Byte) : TableRow.Statement (.wr8 off data) := by
  constructor
  · show (encodeWr8 off data &&& 0x100000#21 == 0x100000#21) = true
    rw [and_we, encodeWr8_we]; rfl
  · show ((encodeWr8 off data).getLsbD 20 || _) = true
    rw [encodeWr8_we]; rfl

theorem TableRow.rd8 (off : Offset) : TableRow.Statement (.rd8 off) := by
  constructor
  · show (encodeRd8 off &&& 0x100000#21 == 0x000000#21) = true
    rw [and_we, encodeRd8_we]; rfl
  · show ((encodeRd8 off).getLsbD 20 || decide ((encodeRd8 off).extractLsb' 0 8 = 0#8)) = true
    rw [encodeRd8_data]; simp

end Sys2Proof.Laws
end

