-- ==== Sys2Proof/Tests/Slice0.lean ====
section
/-! SUPPORT. The model's own tests: ill-formed terms the checks refuse, words written out from the spec, one step at a time
on the vectors of 95_test_vectors.md, and one witness for the hypotheses of each obligation. -/

namespace Sys2Proof.Tests

open Sys2Proof.Machine Sys2Proof.Claims

/-! ## Small states -/

/-- A state after power-on with `bs` received and `n` in RXCNT. -/
def rx (bs : List Byte) (n : Half) : State := { putBytes 0x200 bs State.reset with rxcnt := n }

/-- A state after power-on with the ENCODE operands `c` and `bs`. -/
def tx (c : Half) (bs : List Byte) : State :=
  { putBytes 0x000 bs State.reset with code := c, len := BitVec.ofNat 8 bs.length }

/-- A state after power-on with the given channel inputs. -/
def chans (v : Vector Half 8) : State := { State.reset with chIn := v }

/-- A block with operation `op` issued over `s`. -/
def busyWith (op : Byte) (s : State) : State := issue op s

/-- `s` with the turns `ts` placed. -/
def play (ts : List Turn) (s : State) : State := { s with turns := ts }

/-- The next state satisfies `p`. -/
def nextIs (o : Host.Outcome State Fault Refusal) (p : State → Bool) : Bool :=
  match o with
  | .next t => p t
  | .fault _ => false
  | .refused _ => false

/-! ## Received frames of 95_test_vectors.md -/

/-- V-D1. -/
def frameD1 : List Byte := [0x24#8, 0x4D#8, 0x3E#8, 0x03#8, 0x07#8, 0x01#8, 0x02#8, 0x03#8, 0x04#8]
/-- V-A1. -/
def frameA1 : List Byte :=
  [0x24#8, 0x4D#8, 0x3E#8, 0x06#8, 0x6C#8, 0x64#8, 0x00#8, 0xCE#8, 0xFF#8, 0x2D#8, 0x00#8, 0x12#8]
/-- V-R1. -/
def frameR1 : List Byte :=
  [0x24#8, 0x4D#8, 0x3E#8, 0x10#8, 0x69#8, 0xDC#8, 0x05#8, 0xDD#8, 0x05#8, 0xE8#8, 0x03#8] ++
  [0xD0#8, 0x07#8, 0x4C#8, 0x04#8, 0xB0#8, 0x04#8, 0x14#8, 0x05#8, 0x78#8, 0x05#8, 0xD4#8]
/-- V-R3: the first 16 bytes of a new frame over V-R1. -/
def frameR3 : List Byte :=
  [0x24#8, 0x4D#8, 0x3E#8, 0x10#8, 0x69#8, 0xE8#8, 0x03#8, 0xE8#8, 0x03#8, 0xE8#8, 0x03#8] ++
  [0xE8#8, 0x03#8, 0xE8#8, 0x03#8, 0xE8#8, 0x04#8, 0x14#8, 0x05#8, 0x78#8, 0x05#8, 0xD4#8]
/-- V-P1. -/
def frameP1 : List Byte :=
  [0x24#8, 0x4D#8, 0x3E#8, 0x07#8, 0x03#8, 0x01#8, 0x02#8, 0x03#8, 0x04#8, 0x05#8, 0x06#8, 0x64#8, 0x67#8]

/-! ## Ill-formed terms -/

/-- A CMD8 byte that names no operation (30_encoding.md R101). -/
theorem smoke_cmd8_illegal : CodeWord.wf (.cmd8 0x07#8) = false := by decide
/-- A read whose ignored bits are not shown as 0 (30_encoding.md R90). -/
theorem smoke_read_data : CodeWord.wf (.bus21 0x010201#21) = false := by decide
/-- A write with any data is well-formed. -/
theorem smoke_write_data : CodeWord.wf (.bus21 0x1FFFFF#21) = true := by decide
theorem smoke_wr8_outside : ScriptLine.wf (.wr8 0x1000 0x00#8) = false := by decide
theorem smoke_rd8_outside : ScriptLine.wf (.rd8 0x1000) = false := by decide
theorem smoke_wr16_outside : ScriptLine.wf (.wr16 0xFFF 0x0000#16) = false := by decide
theorem smoke_rd16_outside : ScriptLine.wf (.rd16 0xFFF) = false := by decide
theorem smoke_wrbuf_empty : ScriptLine.wf (.wrbuf 0x000 []) = false := by decide
theorem smoke_wrbuf_outside : ScriptLine.wf (.wrbuf 0xFFF [0x00#8, 0x00#8]) = false := by decide
theorem smoke_rdbuf_empty : ScriptLine.wf (.rdbuf 0x000 0) = false := by decide
theorem smoke_rdbuf_outside : ScriptLine.wf (.rdbuf 0xFFE 3) = false := by decide
theorem smoke_wait_never : ScriptLine.wf (.wait 0) = false := by decide
/-- A memory whose offsets do not rise, and one that lists an offset of no buffer. -/
theorem smoke_memory_order : ¬ Memory.wf [(0x001, 0x00#8), (0x000, 0x00#8)] := by decide
theorem smoke_memory_hole : ¬ Memory.wf [(0x505, 0x00#8)] := by decide

/-! ## Decoding: words written out from 30_encoding.md R91 and from the listings of 95_test_vectors.md §3 -/

theorem test_decode_nop : decode (.cmd8 0b00000000#8) = .ok .nop := by decide
theorem test_decode_encode : decode (.cmd8 0b00000001#8) = .ok .encode := by decide
theorem test_decode_encodeChannels : decode (.cmd8 0b00000010#8) = .ok .encodeChannels := by decide
theorem test_decode_decodeFrame : decode (.cmd8 0b00000011#8) = .ok .decodeFrame := by decide
theorem test_decode_decodeAttitude : decode (.cmd8 0b00000100#8) = .ok .decodeAttitude := by decide
theorem test_decode_decodeChannels : decode (.cmd8 0b00000101#8) = .ok .decodeChannels := by decide
theorem test_decode_checkReady : decode (.cmd8 0b00000110#8) = .ok .checkReady := by decide
/-- P1: `wr8 0x104, 0x6C` is 0x11046C. -/
theorem test_decode_wr8 : decode (.bus21 0b1_0001_0000_0100_0110_1100#21) = .ok (.wr8 0x104#12 0x6C#8) := by decide
/-- P1: `rd8 0x10A` is 0x010A00. -/
theorem test_decode_rd8 : decode (.bus21 0b0_0001_0000_1010_0000_0000#21) = .ok (.rd8 0x10A#12) := by decide
theorem test_decode_illegal : decode (.cmd8 0xFF#8) = .error (.illegalOp 0xFF#8) := by decide
/-- The opcode table's numbering: a CMD8 row is 8 bits, a BUS21 row 21 bits, 24 in whole bytes. -/
theorem test_table_words : decodeTableWord 8 0x05 = some .decodeChannels ∧ decodeTableWord 8 0x07 = none ∧
    decodeTableWord 24 0x112705 = some (.wr8 0x127#12 0x05#8) ∧ decodeTableWord 21 0x011500 = some (.rd8 0x115#12) ∧
    decodeTableWord 24 0x200000 = none ∧ decodeTableWord 16 0x0001 = none := by decide

/-! ## What a step fetches -/

theorem test_fetch_operation : nextIs (step ((rx frameA1 12#16).withFetchWord 8 0x04))
    (fun t => t.attRoll == 0x0064#16 && t.cmd == 0x04#8 && !t.busy && t.pending == none) = true := by decide
theorem test_fetch_write : nextIs (step (State.reset.withFetchWord 24 0x11046C)) (fun t => t.code == 0x006C#16) = true := by
  decide
theorem test_fetch_read : nextIs (step (State.reset.withFetchWord 24 0x010700)) (fun t => t.replies == [0x08#8]) = true := by
  decide

/-! ## One step on the vectors of 95_test_vectors.md §2 -/

/-- V-N1. -/
theorem test_nop : nextIs (exec .nop { State.reset with result := 2#8, flags := 0x0F#6 })
    (fun t => t.result == 0#8 && t.flags == 0x0F#6) = true := by decide
/-- V-N3, with V-A1's FLAGS. -/
theorem test_illegal : nextIs (step (busyWith 0xFF#8 { State.reset with flags := 0x0F#6 }))
    (fun t => t.result == 4#8 && t.cmd == 0xFF#8 && t.flags == 0x0F#6 && !t.busy) = true := by decide
/-- V-E11. -/
theorem test_encode_frame : nextIs (exec .encode (tx 0x0042#16 [0x01#8, 0x02#8, 0x03#8, 0x04#8, 0x05#8]))
    (fun t => t.bytesAt 0x400 11 ==
      [0x24#8, 0x4D#8, 0x3C#8, 0x05#8, 0x42#8, 0x01#8, 0x02#8, 0x03#8, 0x04#8, 0x05#8, 0x46#8] &&
      t.txcnt == 11#16 && t.result == 0#8) = true := by decide
/-- V-E13: a raising encode keeps the frame before it. -/
theorem test_encode_raise : nextIs (exec .encode { putBytes 0x400 [0x24#8, 0x4D#8] (tx 0x00FF#16 []) with txcnt := 6#16 })
    (fun t => t.result == 1#8 && t.txcnt == 0#16 && t.flags == 0#6 && t.bytesAt 0x400 2 == [0x24#8, 0x4D#8]) = true := by
  decide
/-- V-C2. -/
theorem test_channels_frame :
    nextIs (exec .encodeChannels
      (chans #v[0xFFFF#16, 0x0000#16, 0x1234#16, 0x8000#16, 0x7FFF#16, 0x00FF#16, 0xFF00#16, 0x0001#16]))
      (fun t => t.bytesAt 0x400 22 ==
        [0x24#8, 0x4D#8, 0x3C#8, 0x10#8, 0xC8#8, 0xFF#8, 0xFF#8, 0x00#8, 0x00#8, 0x34#8, 0x12#8] ++
        [0x00#8, 0x80#8, 0xFF#8, 0x7F#8, 0xFF#8, 0x00#8, 0x00#8, 0xFF#8, 0x01#8, 0x00#8, 0xFF#8] &&
        t.txcnt == 22#16) = true := by decide
/-- V-C7. -/
theorem test_channels_raise : nextIs (exec .encodeChannels { State.reset with chCount := 9#8, flags := 0x0F#6 })
    (fun t => t.result == 3#8 && t.txcnt == 0#16 && t.flags == 0#6) = true := by decide
set_option maxRecDepth 8000 in
/-- V-D6: a wrong checksum is reported and the frame decoded anyway. -/
theorem test_frame_checksum :
    nextIs (exec .decodeFrame (rx [0x24#8, 0x4D#8, 0x3E#8, 0x01#8, 0x07#8, 0xAA#8, 0x00#8] 7#16))
      (fun t => t.rxCode == 0x07#8 && t.rxLen == 1#8 && t.rxChk == 0x00#8 && t.calcChk == 0xAC#8 && t.flags == 0x0B#6 &&
        t.bytesAt 0x600 2 == [0xAA#8, 0x00#8]) = true := by decide
/-- V-D9: TRUNCATED comes before UNSUPPORTED_VERSION. -/
theorem test_frame_truncated : nextIs (exec .decodeFrame (rx [0x24#8, 0x4D#8, 0x3E#8, 0x00#8, 0xFF#8] 3#16))
    (fun t => t.result == 2#8 && t.flags == 0#6) = true := by decide
/-- V-A2. -/
theorem test_attitude_signs :
    nextIs (exec .decodeAttitude
      (rx [0x24#8, 0x4D#8, 0x3E#8, 0x06#8, 0x6C#8, 0x00#8, 0x80#8, 0xFF#8, 0x7F#8, 0xFF#8, 0xFF#8, 0x6A#8] 12#16))
      (fun t => t.attRoll.toInt == -32768 && t.attPitch.toInt == 32767 && t.attYaw.toInt == -1 && t.flags == 0x0F#6 &&
        t.calcChk == 0x6A#8 && t.attValid) = true := by decide
/-- V-A5: the frame its length byte describes is not complete. -/
theorem test_attitude_incomplete :
    nextIs (exec .decodeAttitude
      (rx [0x24#8, 0x4D#8, 0x3E#8, 0x10#8, 0x6C#8, 0x64#8, 0x00#8, 0xCE#8, 0xFF#8, 0x2D#8, 0x00#8, 0x12#8] 12#16))
      (fun t => t.attPitch == 0xFFCE#16 && t.rxChk == 0#8 && t.calcChk == 0#8 && t.flags == 0x0B#6) = true := by decide
/-- V-R3: stale bytes past the received count. -/
theorem test_channels_short : nextIs (exec .decodeChannels (rx frameR3 16#16))
    (fun t => t.chOut.toList == [1000#16, 1000#16, 1000#16, 1000#16, 1000#16, 1256#16, 1300#16, 1400#16] &&
      t.flags == 0x1B#6 && t.chValid) = true := by decide
/-- V-R2. -/
theorem test_channels_truncated : nextIs (exec .decodeChannels { rx frameR1 15#16 with flags := 0x0F#6 })
    (fun t => t.result == 2#8 && t.flags == 0#6 && !t.chValid) = true := by decide
/-- V-P4: only the sentinel decides READY. -/
theorem test_ready_sentinel : nextIs (exec .checkReady (rx (List.replicate 11 0x00#8 ++ [0x64#8]) 12#16))
    (fun t => t.result == 0#8 && t.flags == 0x24#6) = true := by decide
/-- V-P3: sentinel 99. -/
theorem test_ready_not :
    nextIs (exec .checkReady
      (rx [0x24#8, 0x4D#8, 0x3E#8, 0x07#8, 0x03#8, 0x01#8, 0x02#8, 0x03#8, 0x04#8, 0x05#8, 0x06#8, 0x63#8, 0x60#8] 13#16))
      (fun t => t.result == 0#8 && t.flags == 0x0F#6 && t.calcChk == 0x60#8) = true := by decide
/-- V-H7. -/
theorem test_write_low_byte : nextIs (exec (.wr8 0x108#12 0x0C#8) { State.reset with rxcnt := 0x1234#16 })
    (fun t => t.rxcnt == 0x120C#16) = true := by decide
/-- V-H2. -/
theorem test_write_busy_cmd : nextIs (exec (.wr8 0x100#12 0x01#8) (busyWith 0x04#8 State.reset))
    (fun t => t.cmd == 0x04#8 && t.pending == some 0x04#8 && t.overrun) = true := by decide
/-- V-H8, second half. -/
theorem test_read_status : nextIs (exec (.rd8 0x101#12) { busyWith 0x04#8 State.reset with overrun := true })
    (fun t => t.replies == [0x03#8]) = true := by decide
/-- V-H6. -/
theorem test_read_reserved : nextIs (exec (.rd8 0x505#12) State.reset) (fun t => t.replies == [0x00#8]) = true := by decide
/-- V-Z5: V-A1's bytes stay, the registers go. -/
theorem test_reset : nextIs (step (play [.reset] { rx frameA1 12#16 with attRoll := 0x0064#16, attValid := true }))
    (fun t => t.attRoll == 0#16 && !t.attValid && t.rxcnt == 0#16 && t.bytesAt 0x200 12 == frameA1) = true := by decide
/-- V-A6 scaled: roll -0.1, pitch 0.1, yaw 360. -/
theorem test_scaled : scaledAttitude { State.reset with attRoll := 0xFFFF#16, attPitch := 0x0001#16, attYaw := 0x0168#16 } =
    ⟨-1 / 10, 1 / 10, 360⟩ := by
  have h1 : (0xFFFF#16).toInt = -1 := by decide
  have h2 : (0x0001#16).toInt = 1 := by decide
  have h3 : (0x0168#16).toInt = 360 := by decide
  simp [scaledAttitude, h1, h2, h3]
/-- The signed reading of a channel register (10_state.md R44): V-R5's second value. -/
theorem test_channels_signed : (channels { State.reset with chValid := true, chOut := Vector.replicate 8 0x8000#16 }) =
    some (List.replicate 8 (-32768)) := by decide

/-! ## Witnesses: for each obligation that has hypotheses, a state and operands that meet them -/

/-- A block with DECODE_ATTITUDE issued over V-A1, the codec's turn next. -/
def midway : State := play [.codec] (busyWith 0x04#8 (rx frameA1 12#16))

theorem witness_ResetSetsRegistersAndKeepsBuffers : (play [.reset, .codec] midway).turns = .reset :: [.codec] := rfl

theorem witness_ResetKeepsTheHostSide : (play [.reset, .codec] { midway with replies := [0x01#8] }).turns =
    .reset :: [.codec] := rfl

theorem witness_EveryStepKeepsInvariant : midway.Inv ∧ ∃ t, step midway = .next t := ⟨by decide, _, rfl⟩

theorem witness_ReachableStatesMeetRuleR48 :
    ∃ t, core.run 2 { State.reset with turns := [.host 0x110001#21, .codec] } = .next t := ⟨_, rfl⟩

theorem witness_NothingStaysPendingForever :
    (play [.host 0x110001#21, .reset] midway).busyAgrees ∧ (play [] midway).busyAgrees := by decide

theorem witness_OperationsAreDefinedAfterPowerOn : floorOf .decodeFrame = some 6 ∧ floorOf .decodeAttitude = some 12 ∧
    floorOf .decodeChannels = some 16 ∧ floorOf .checkReady = some 12 := by decide

theorem witness_StepRunsDecodedInstruction :
    ((play [.host 0x11046C#21] midway).turns = .host 0x11046C#21 :: [] ∧
      decode (.bus21 0x11046C#21) = .ok (.wr8 0x104#12 0x6C#8)) ∧
    (codecNext midway ∧ midway.pending = some 0x04#8 ∧ decode (.cmd8 0x04#8) = .ok .decodeAttitude ∧
      ∃ t, exec .decodeAttitude { midway with turns := midway.turns.tail } = .next t) ∧
    (codecNext State.reset ∧ State.reset.pending = none) :=
  ⟨⟨rfl, by decide⟩, ⟨.inr ⟨_, rfl⟩, rfl, by decide, _, rfl⟩, .inl rfl, rfl⟩

theorem witness_DecodeOfEncodeIsIdentity : Instr.wf (.wr8 0xFFF#12 0xFF#8) = true ∧ Instr.wf .checkReady = true := by decide

theorem witness_EncodeOfDecodeIsIdentity : CodeWord.wf (.cmd8 0x06#8) = true ∧ CodeWord.wf (.bus21 0x0FFF00#21) = true := by
  decide

theorem witness_IllegalBytesAreRejected :
    7 ≤ (0x07#8).toNat ∧ 7 ≤ (0xFF#8).toNat ∧ (0x00#8).toNat < 7 ∧ (0x06#8).toNat < 7 := by decide

/-- An idle block to whose CMD `op` is about to be written, the codec's turn after it. -/
def issuing (op : Byte) : State := play [.host (encodeWr8 0x100#12 op), .codec] { State.reset with result := 2#8 }

theorem witness_IllegalCommandOnlyReports : 7 ≤ (0x07#8).toNat ∧ 7 ≤ (0xFF#8).toNat ∧
    (issuing 0x07#8).busy = false ∧ (issuing 0x07#8).pending = none ∧
    (issuing 0x07#8).turns = .host (encodeWr8 0x100#12 0x07#8) :: .codec :: [] := by decide

theorem witness_NopOnlyClearsResult : (issuing 0x00#8).busy = false ∧ (issuing 0x00#8).pending = none ∧
    (issuing 0x00#8).turns = .host (encodeWr8 0x100#12 0x00#8) :: .codec :: [] := by decide

theorem witness_OperationsKeepOperands : isOperation .nop = true ∧ isOperation .encode = true ∧
    isOperation .encodeChannels = true ∧ isOperation .decodeFrame = true ∧ isOperation .decodeAttitude = true ∧
    isOperation .decodeChannels = true ∧ isOperation .checkReady = true ∧
    (codecNext (busyWith 0xFF#8 State.reset) ∧ (busyWith 0xFF#8 State.reset).pending = some 0xFF#8) ∧
    ∃ t u, exec .encode (tx 0#16 []) = .next t ∧ exec .encode t = .next u :=
  ⟨rfl, rfl, rfl, rfl, rfl, rfl, rfl, ⟨.inl rfl, rfl⟩, _, _, rfl, rfl⟩

/-- V-E10's operands. -/
def opsE10 : State := tx 0x0007#16 [0x01#8, 0x02#8, 0x03#8]

theorem witness_EncodeBuildsRequestFrame : 255 ≤ (tx 255#16 []).code.toNat ∧ opsE10.code.toNat < 255 ∧
    (tx 254#16 [0xFF#8]).code.toNat < 255 := by decide

theorem witness_EncodeRaisesExactlyOnV2Codes :
    255 ≤ (tx 255#16 []).code.toNat ∧ 255 ≤ (tx 0xFFFF#16 []).code.toNat ∧ ∃ t, exec .encode (tx 255#16 []) = .next t :=
  ⟨by decide, by decide, _, rfl⟩

theorem witness_EncodedFrameMeetsChecksumLaw : ∃ t, exec .encode opsE10 = .next t ∧ t.result = 0#8 := ⟨_, rfl, rfl⟩

theorem witness_EncodeTwiceGivesSameFrame : opsE10.Inv ∧ ∃ t, exec .encode opsE10 = .next t := ⟨by decide, _, rfl⟩

/-- V-E10's operands over another TXP[3] and another RXB. -/
def opsE10' : State := putBytes 0x003 [0x77#8] (putBytes 0x200 [0x88#8] opsE10)

theorem witness_EncodeReadsOnlyItsOperands :
    opsE10.code = opsE10'.code ∧ opsE10.len = opsE10'.len ∧ (∀ j < opsE10.len.toNat, opsE10.txp j = opsE10'.txp j) ∧
    ∃ s' u', exec .encode opsE10 = .next s' ∧ exec .encode opsE10' = .next u' :=
  ⟨rfl, rfl, by decide, _, _, rfl, rfl⟩

theorem witness_EncodeChannelsBuildsSetFrame : { State.reset with chCount := 7#8 }.chCount ≠ 8#8 ∧
    { State.reset with chCount := 9#8 }.chCount ≠ 8#8 ∧ State.reset.chCount = 8#8 := by decide

theorem witness_EncodeChannelsRaisesOnOtherCounts :
    { State.reset with chCount := 7#8 }.chCount ≠ 8#8 ∧ { State.reset with chCount := 9#8 }.chCount ≠ 8#8 ∧
    ∃ t, exec .encodeChannels { State.reset with chCount := 7#8 } = .next t := ⟨by decide, by decide, _, rfl⟩

/-- V-C3's operands. -/
def opsC3 : State := chans (Vector.replicate 8 1500#16)

theorem witness_EqualChannelsGiveChecksumD8 :
    opsC3.chCount = 8#8 ∧ (∀ i : Fin 8, opsC3.chIn[i] = 1500#16) ∧ ∃ t, exec .encodeChannels opsC3 = .next t :=
  ⟨rfl, by decide, _, rfl⟩

theorem witness_DecodesTruncateBelowTheirFloor :
    (floorOf .decodeFrame = some 6 ∧ received (rx frameD1 5#16) < 6) ∧
    (floorOf .decodeAttitude = some 12 ∧ received (rx frameA1 11#16) < 12) ∧
    (floorOf .decodeChannels = some 16 ∧ received (rx frameR1 15#16) < 16) ∧
    (floorOf .checkReady = some 12 ∧ received (rx frameP1 11#16) < 12) ∧
    received (rx frameD1 8#16) < 6 + lenByte (rx frameD1 8#16) := by decide

/-- V-D5. -/
def opsD5 : State := rx [0x24#8, 0x4D#8, 0x3E#8, 0x00#8, 0xFF#8, 0xFF#8] 6#16

theorem witness_DecodeFrameExtractsPayload :
    (received (rx frameD1 5#16) < 6 ∧ received (rx frameD1 8#16) < 6 + lenByte (rx frameD1 8#16)) ∧
    (6 + lenByte opsD5 ≤ received opsD5 ∧ opsD5.rxb 4 = 255#8) ∧
    6 + lenByte (rx frameD1 9#16) ≤ received (rx frameD1 9#16) ∧ (rx frameD1 9#16).rxb 4 ≠ 255#8 := by decide

theorem witness_DecodeFrameRefusesCode255 :
    (∃ t, exec .decodeAttitude opsD5 = .next t) ∧ (∃ t, exec .decodeChannels opsD5 = .next t) ∧
    (∃ t, exec .checkReady opsD5 = .next t) ∧
    (6 + lenByte opsD5 ≤ received opsD5 ∧ opsD5.rxb 4 = 255#8) ∧ ∃ t, exec .decodeFrame opsD5 = .next t :=
  ⟨⟨_, rfl⟩, ⟨_, rfl⟩, ⟨_, rfl⟩, by decide, _, rfl⟩

/-- V-D10. -/
def opsD10 : State := rx (frameD1 ++ [0x99#8]) 10#16

theorem witness_DecodeFrameIgnoresTrailingBytes :
    whole (rx frameD1 9#16) ∧ whole opsD10 ∧
    (∀ j < 6 + lenByte (rx frameD1 9#16), (rx frameD1 9#16).rxb j = opsD10.rxb j) ∧
    ∃ s' u', exec .decodeFrame (rx frameD1 9#16) = .next s' ∧ exec .decodeFrame opsD10 = .next u' :=
  ⟨show 6 + lenByte _ ≤ received _ by decide, show 6 + lenByte _ ≤ received _ by decide, by decide, _, _, rfl, rfl⟩

theorem witness_EncodeThenDecodeRecoversPayload :
    ∃ t, opsE10.code.toNat < 255 ∧ exec .encode opsE10 = .next t ∧ (rx frameD1 9#16).rxcnt = t.txcnt ∧
      ∀ j < t.txcnt.toNat, (rx frameD1 9#16).rxb j = if j = 2 then 0x3E#8 else t.txf j :=
  ⟨_, by decide, rfl, rfl, by decide⟩

theorem witness_DecodeAttitudeTakesThreeValues :
    received (rx frameA1 11#16) < 12 ∧ 12 ≤ received (rx frameA1 12#16) := by decide

theorem witness_AttitudeExampleScales : 12 ≤ received (rx frameA1 12#16) ∧
    (List.range 6).map (fun j => (rx frameA1 12#16).rxb (5 + j)) = [0x64#8, 0x00#8, 0xCE#8, 0xFF#8, 0x2D#8, 0x00#8] := by
  decide

theorem witness_DecodeChannelsTakesEightValues :
    received (rx frameR1 15#16) < 16 ∧ 16 ≤ received (rx frameR1 16#16) ∧ 16 ≤ received (rx frameR1 20#16) ∧ 16 ≤ received (rx frameR1 21#16) := by decide

theorem witness_CheckReadyTestsSentinel : received (rx frameP1 11#16) < 12 ∧ 12 ≤ received (rx frameP1 12#16) := by
  decide

/-- Each clause's offsets at the ends of their ranges. -/
theorem witness_ReadReturnsWindowByte :
    ((0x000#12).toNat = 0 ∧ (0x0FF#12).toNat = 255) ∧ ((0x200#12).toNat = 0x200 + 0 ∧ (0x3FF#12).toNat = 0x200 + 511) ∧
    ((0x400#12).toNat = 0x400 + 0 ∧ (0x504#12).toNat = 0x400 + 260) ∧
    ((0x600#12).toNat = 0x600 + 0 ∧ (0x6FF#12).toNat = 0x600 + 255) ∧
    ((0x120#12).toNat = 0x120 + 2 * (0 : Fin 8).val ∧ (0x12F#12).toNat = 0x121 + 2 * (7 : Fin 8).val) ∧
    ((0x130#12).toNat = 0x130 + 2 * (0 : Fin 8).val ∧ (0x13F#12).toNat = 0x131 + 2 * (7 : Fin 8).val) ∧
    (∀ k : Fin 23, (BitVec.ofNat 12 (0x100 + k.val)).toNat = 0x100 + k.val) ∧
    (0x117 ≤ (0x117#12).toNat ∧ (0x11F#12).toNat ≤ 0x11F) ∧ (0x140 ≤ (0x140#12).toNat ∧ (0x1FF#12).toNat ≤ 0x1FF) ∧
    (0x505 ≤ (0x505#12).toNat ∧ (0x5FF#12).toNat ≤ 0x5FF) ∧ (0x700 ≤ (0x700#12).toNat ∧ 0x700 ≤ (0xFFF#12).toNat) := by
  decide

theorem witness_IdleWriteStoresByte : State.reset.busy = false ∧
    (hostBuffer (0x000#12).toNat ∧ hostBuffer (0x0FF#12).toNat ∧ hostBuffer (0x200#12).toNat ∧ hostBuffer (0x3FF#12).toNat) ∧
    (0x100#12).toNat = 0x100 ∧ (∀ k : Fin 6, (BitVec.ofNat 12 (0x104 + k.val)).toNat = 0x104 + k.val) ∧
    (0x12E#12).toNat = 0x120 + 2 * (7 : Fin 8).val ∧ (0x12F#12).toNat = 0x121 + 2 * (7 : Fin 8).val ∧
    (0x101#12).toNat = 0x101 ∧ (readOnly (0x102#12).toNat ∧ readOnly (0x11F#12).toNat ∧ readOnly (0xFFF#12).toNat) := by
  unfold hostBuffer readOnly
  decide

theorem witness_BusyWriteIsLostAndSetsOverrun : midway.busy = true ∧
    (hostBuffer (0x0FF#12).toNat ∧ hostBuffer (0x200#12).toNat ∧ hostBuffer (0x3FF#12).toNat) ∧ (0x100#12).toNat = 0x100 ∧
    (0x104 ≤ (0x104#12).toNat ∧ (0x109#12).toNat ≤ 0x109) ∧ (0x120 ≤ (0x120#12).toNat ∧ (0x12F#12).toNat ≤ 0x12F) ∧
    (0x101#12).toNat = 0x101 := by
  unfold hostBuffer
  decide

theorem witness_ReadOnlyWriteHasNoEffect : readOnly (0x102#12).toNat ∧ readOnly (0x103#12).toNat ∧
    readOnly (0x10A#12).toNat ∧ readOnly (0x11F#12).toNat ∧ readOnly (0x130#12).toNat ∧ readOnly (0x1FF#12).toNat ∧
    readOnly (0x400#12).toNat ∧ readOnly (0xFFF#12).toNat := by
  unfold readOnly
  decide

theorem witness_RepeatedWriteChangesNothing :
    (0x106#12).toNat ≠ 0x100 ∧ (∃ t, exec (.wr8 0x106#12 0x05#8) State.reset = .next t) ∧
    ∃ t, exec (.wr8 0x106#12 0x05#8) midway = .next t := ⟨by decide, ⟨_, rfl⟩, _, rfl⟩

theorem witness_CodeBytesMayBeWrittenInEitherOrder : opsE10.busy = false := rfl

theorem witness_OperandWritesCommute : opsE10.Inv ∧ opsE10.busy = false ∧ (0x104#12 : Offset) ≠ 0x105#12 ∧
    (0x104#12).toNat ≠ 0x100 ∧ (0x105#12).toNat ≠ 0x100 := by decide

theorem witness_HostCannotChangeBusyBlock :
    (play [.host 0x110605#21, .host 0x010600#21, .codec] midway).busy = true ∧
    (play [.host 0x110605#21, .host 0x010600#21, .codec] midway).turns =
      [0x110605#21, 0x010600#21].map Turn.host ++ [.codec] := by decide

theorem witness_WaitEndsAfterCodecStep :
    (play [.codec, .host 0x010100#21] midway).turns = .codec :: (ScriptLine.wait 1).turns ++ [] ∧
    (play [.codec, .host 0x010100#21] midway).pending ≠ none := by decide

theorem witness_Wr16WritesWholeRegister : State.reset.busy = false ∧
    (play [.host 0x11046C#21, .host 0x110500#21] State.reset).turns = (ScriptLine.wr16 0x104 0x006C#16).turns ++ [] ∧
    (play [.host 0x11080C#21, .host 0x110900#21] State.reset).turns = (ScriptLine.wr16 0x108 0x000C#16).turns ++ [] ∧
    (play [.host 0x1120DC#21, .host 0x112105#21] State.reset).turns =
      (ScriptLine.wr16 (0x120 + 2 * (0 : Fin 8).val) 0x05DC#16).turns ++ [] ∧
    (play [.host 0x112ED0#21, .host 0x112F07#21] State.reset).turns =
      (ScriptLine.wr16 (0x120 + 2 * (7 : Fin 8).val) 0x07D0#16).turns ++ [] := by
  decide

set_option maxRecDepth 8000 in
theorem frame_changes_rxp :
    nextIs (step (busyWith 0x03#8 (putBytes 0x600 [0x00#8] (rx frameD1 9#16)))) (fun t => t.byteAt 0x600 != 0x00#8) = true :=
  by decide

/-- A host write, an ENCODE and a DECODE_FRAME that each change a listed byte. -/
theorem witness_BufferBytesChangeOnlyByTheirWriters :
    (nextIs (step (play [.host 0x120033#21] (rx frameD1 9#16)))
      (fun t => t.byteAt 0x200 != (rx frameD1 9#16).byteAt 0x200) = true) ∧
    (nextIs (step (busyWith 0x01#8 (putBytes 0x400 [0x00#8] opsE10))) (fun t => t.byteAt 0x400 != 0x00#8) = true) ∧
    (nextIs (step (busyWith 0x03#8 (putBytes 0x600 [0x00#8] (rx frameD1 9#16)))) (fun t => t.byteAt 0x600 != 0x00#8) = true)
    := by
  refine ⟨by decide, by decide, ?_⟩
  exact frame_changes_rxp

theorem witness_AttitudeChangesOnlyTogether :
    (∃ t, step midway = .next t ∧ t.attRoll ≠ midway.attRoll) ∧
    ∃ t, step (play [.reset] { midway with attYaw := 1#16 }) = .next t ∧ t.attYaw ≠ 1#16 :=
  ⟨⟨_, rfl, by decide⟩, _, rfl, by decide⟩

/-- `midway` with both VALID bits set. -/
def midwayValid : State := { midway with attValid := true, chValid := true }

theorem witness_ValidBitsClearedOnlyByReset : (∃ t, step midwayValid = .next t) ∧
    (∀ rest, midwayValid.turns ≠ .reset :: rest) ∧ midwayValid.attValid = true ∧ midwayValid.chValid = true :=
  ⟨⟨_, rfl⟩, fun _ h => (by cases h), rfl, rfl⟩

theorem witness_OverrunSetAndClearedOnlyByHost :
    (∃ t, step (play [.host 0x110605#21] midway) = .next t ∧ t.overrun = true ∧ midway.overrun = false) ∧
    (∃ t, step (play [.host 0x110102#21] { midway with overrun := true }) = .next t ∧ t.overrun = false) ∧
    ∃ t, step (play [.reset] { midway with overrun := true }) = .next t ∧ t.overrun = false :=
  ⟨⟨_, rfl, rfl, rfl⟩, ⟨_, rfl, rfl⟩, _, rfl, rfl⟩

/-- A host that issues an operation to the idle block and then makes no write: it keeps the rule at every step. -/
theorem witness_DisciplinedHostNeverOverruns (j : Nat) (u : State) (x : Turn) (rest : List Turn)
    (hr : core.run j { State.reset with turns := [.host 0x110001#21, .codec] } = .next u) (hx : u.turns = x :: rest) :
    keepsBusyRule u x = true := by
  match j with
  | 0 =>
    cases hr
    cases hx
    decide
  | 1 =>
    cases hr
    cases hx
    rfl
  | k + 2 =>
    have h := run_succ (k + 1) (u := play [.codec] (busyWith 0x01#8 State.reset))
      (s := { State.reset with turns := [.host 0x110001#21, .codec] }) rfl
    obtain ⟨v, hv, -⟩ := step_effect (play [.codec] (busyWith 0x01#8 State.reset))
    rw [h, run_succ k hv] at hr
    have hi : v.turns = [] ∧ v.pending = none := by cases hv; exact ⟨rfl, rfl⟩
    have hk := run_induction (P := fun s => s.turns = [] ∧ s.pending = none)
      (fun s t hs ht => by
        have he : step s = .next s := by
          unfold step codecTurn
          simp [hs.1, hs.2]
        rw [he] at ht
        cases ht
        exact hs) k hi hr
    rw [hk.1] at hx
    cases hx

end Sys2Proof.Tests
end

section
/-! PROOFS. The family of 10_state.md: the invariant and R48 (O3, O4, O5), and which event may change a buffer byte (O46),
the attitude (O47), the VALID bits (O48) and OVERRUN (O49). Each proof takes a step apart by `StepEffect`; what one
operation and what one host write does to the part of the state in question is a lemma of its own. -/

namespace Sys2Proof.Machine

open Sys2Proof.Claims

/-! ## The next event -/

theorem stepEffect_of_step {s t : State} (h : step s = .next t) : StepEffect s t := by
  obtain ⟨u, hu, he⟩ := step_effect s
  rw [hu] at h
  cases h
  exact he

theorem codecNext_of_head {s : State} (h : s.turns = [] ∨ s.turns.head? = some .codec) : codecNext s :=
  h.imp id List.head?_eq_some_iff.1

theorem writeNext_of_head {s : State} {off : Offset} {v : Byte}
    (h : s.turns.head? = some (.host (encodeWr8 off v))) : writeNext s off v := List.head?_eq_some_iff.1 h

theorem resetNext_of_head {s : State} (h : s.turns.head? = some .reset) : ∃ rest, s.turns = .reset :: rest :=
  List.head?_eq_some_iff.1 h

/-! ## The invariant (10_state.md R48) -/

theorem inv_reset : State.reset.Inv :=
  inv_intro Memory.wf_nil rfl (by simp [State.reset]) (.inl rfl) (by decide) (by decide)

/-- An operation's completion leaves nothing pending, so only the parts the operation itself writes are left to show. -/
theorem inv_complete {t : State} (hm : Memory.wf t.mem) (ht : t.txcntLegal) (hr : t.resultLegal) (hf : t.flagsLegal) :
    (complete t).Inv := inv_intro hm rfl (by simp) ht hr hf

theorem txcntLegal_sendFrame {fr : List Byte} (s : State) (h : 6 ≤ fr.length ∧ fr.length ≤ 261) :
    (sendFrame fr s).txcntLegal := by
  right
  rw [sendFrame_txcnt, BitVec.toNat_ofNat]
  omega

theorem txcntLegal_opEffect {s t : State} {i : Instr} (h : s.txcntLegal) (he : OpEffect s i t) : t.txcntLegal := by
  cases he with
  | encodeRaise | channelsRaise => exact .inl rfl
  | encode =>
    have := s.len.isLt
    exact txcntLegal_sendFrame s (by rw [length_requestFrame, length_encodePayload]; omega)
  | channels => exact txcntLegal_sendFrame s (by rw [length_requestFrame, length_channelPayload]; omega)
  | _ => exact h

/-- Every operation, raising or not, leaves a named outcome in RESULT. -/
theorem resultLegal_opEffect {s t : State} {i : Instr} (he : OpEffect s i t) : t.resultLegal := by
  cases he with
  | encodeRaise | channelsRaise | frameShort | frameCode | attitudeShort | chShort | readyShort => exact resultCode_le _
  | _ => exact resultCode_le .ok

theorem flagsLegal_of_zero {t : State} (h : t.flags = 0#6) : t.flagsLegal := by
  unfold State.flagsLegal
  rw [h]
  decide

/-- SHORT is packed by DECODE_CHANNELS only and READY by CHECK_READY only, so no operation packs both. -/
theorem flagsLegal_opEffect {s t : State} {i : Instr} (h : s.flagsLegal) (he : OpEffect s i t) : t.flagsLegal := by
  cases he with
  | nop => exact h
  | frame | attitude | ch | ready => exact packFlags_legal _ s (by simp)
  | _ => exact flagsLegal_of_zero rfl

theorem inv_complete_opEffect {s t : State} {i : Instr} (h : s.Inv) (he : OpEffect s i t) : (complete t).Inv := by
  obtain ⟨hm, -, -, ht, -, hf⟩ := h
  exact inv_complete (wf_opEffect hm he) (txcntLegal_opEffect ht he) (resultLegal_opEffect he)
    (flagsLegal_opEffect hf he)

theorem inv_illegalOperation {s : State} (h : s.Inv) : (complete (illegalOperation s)).Inv := by
  obtain ⟨hm, -, -, ht, -, hf⟩ := h
  exact inv_complete hm ht (resultCode_le .illegalOp) hf

theorem inv_writeStatus {s : State} (v : Byte) (h : s.Inv) : (writeStatus v s).Inv := by
  unfold writeStatus
  split <;> exact h

/-- A host write issues an operation together with its CMD byte and BUSY, or touches none of the three. -/
theorem inv_writeEffect {s t : State} {off : Offset} {v : Byte} (h : s.Inv) (he : WriteEffect s off v t) : t.Inv := by
  have hm' := wf_writeEffect h.1 he
  cases he with
  | accepted _ _ ha =>
    obtain ⟨-, hb, hc, ht, hr, hf⟩ := h
    cases ha with
    | cmd => exact inv_intro hm' rfl (by simp) ht hr hf
    | _ => exact ⟨hm', hb, hc, ht, hr, hf⟩
  | status => exact inv_writeStatus v h
  | _ => exact h

/-- A reset keeps the buffers and puts the rest at the values of power-on. -/
theorem inv_warmReset {s : State} (h : Memory.wf s.mem) : (warmReset s).Inv := ⟨h, inv_reset.2⟩

theorem inv_stepEffect {s t : State} (h : s.Inv) (he : StepEffect s t) : t.Inv := by
  have h' : s.turnTaken.Inv := h
  cases he with
  | idle => exact h'
  | illegal => exact inv_illegalOperation h'
  | operation _ _ _ _ _ _ he => exact inv_complete_opEffect h' he
  | write _ _ _ _ he => exact inv_writeEffect h' he
  | read => exact h'
  | reset => exact inv_warmReset h'.1

/-- Settles O4, by the agent that moves: every kind of step keeps each part of the invariant. -/
theorem everyStepKeepsInvariant : Obligations.EveryStepKeepsInvariant :=
  fun _ _ h ht => inv_stepEffect h (stepEffect_of_step ht)

/-! ## R48 from the invariant -/

theorem memRead_status (s : State) : memRead s 0x101#12 = s.statusByte :=
  (memRead_reg (r := .status) (k := 0) (by decide)).trans (getByte_setWidth _)

theorem memRead_valid (s : State) : memRead s 0x116#12 = s.validByte :=
  (memRead_reg (r := .valid) (k := 0) (by decide)).trans (getByte_setWidth _)

theorem memRead_flags (s : State) : memRead s 0x103#12 = getByte (s.flags.setWidth 16) 0 :=
  memRead_reg (r := .flags) (k := 0) (by decide)

/-- STATUS and VALID hold two bits; the six above them are reserved (10_state.md R29, R42). -/
theorem reserved_above_two_bits : ∀ hi lo : Bool,
    (0#6 ++ BitVec.ofBool hi ++ BitVec.ofBool lo).extractLsb' 2 6 = 0#6 := by
  decide

/-- FLAGS holds six bits; the two above them are reserved (10_state.md R31). -/
theorem reserved_above_flags (f : BitVec 6) : (getByte (f.setWidth 16) 0).extractLsb' 6 2 = 0#2 := by
  ext i hi
  simp [getByte]

theorem ruleR48_of_inv {s : State} (h : s.Inv) : RuleR48 s := by
  obtain ⟨-, hb, -, ht, hr, hdir, hshort⟩ := h
  refine ⟨?_, ht, hr, ?_, ?_, ?_, hdir, hshort⟩
  · rw [hb, Option.isSome_iff_ne_none]
  · rw [memRead_status]
    exact reserved_above_two_bits _ _
  · rw [memRead_flags]
    exact reserved_above_flags _
  · rw [memRead_valid]
    exact reserved_above_two_bits _ _

/-- Settles O3: the reset values meet the invariant, which gives R48. -/
theorem powerOnStateMeetsInvariant : Obligations.PowerOnStateMeetsInvariant := ⟨inv_reset, ruleR48_of_inv inv_reset⟩

/-- Settles O5: the invariant holds at power-on whatever turns are placed, every step keeps it, and it gives R48. -/
theorem reachableStatesMeetRuleR48 : Obligations.ReachableStatesMeetRuleR48 :=
  fun ts k _ hr =>
    have h0 : State.Inv { State.reset with turns := ts } := inv_reset
    ruleR48_of_inv (run_induction everyStepKeepsInvariant k h0 hr)

/-! ## Who writes a buffer byte (10_state.md R23 to R26) -/

theorem inTxf_of_sendFrame_changes {s : State} {fr : List Byte} {a : Nat} (hl : fr.length ≤ 261)
    (h : (sendFrame fr s).byteAt a ≠ s.byteAt a) : inTxf a := by
  by_contra hn
  unfold inTxf at hn
  exact h (byteAt_sendFrame_outside fr s a (by simp only [txfBase]; omega))

theorem inRxp_of_frameDecoded_changes {s : State} {a : Nat} (h : (frameDecoded s).byteAt a ≠ s.byteAt a) : inRxp a := by
  by_contra hn
  unfold inRxp at hn
  exact h (byteAt_frameDecoded_outside s a (by simp only [rxpBase]; omega))

/-- The encodes store in TXF, DECODE_FRAME in RXP, and no other operation stores at all. -/
theorem opEffect_changes_byte {s t : State} {i : Instr} {a : Nat} (he : OpEffect s i t) (h : t.byteAt a ≠ s.byteAt a) :
    (inTxf a ∧ (i = .encode ∨ i = .encodeChannels)) ∨ (inRxp a ∧ i = .decodeFrame) := by
  cases he with
  | encode =>
    have := s.len.isLt
    exact .inl ⟨inTxf_of_sendFrame_changes (by rw [length_requestFrame, length_encodePayload]; omega) h, .inl rfl⟩
  | channels =>
    exact .inl ⟨inTxf_of_sendFrame_changes (by rw [length_requestFrame, length_channelPayload]; omega) h, .inr rfl⟩
  | frame => exact .inr ⟨inRxp_of_frameDecoded_changes h, rfl⟩
  | _ => exact absurd (byteAt_congr rfl a) h

/-- A write of one byte changes that byte only. -/
theorem putBytes_one_changes_byte {s : State} {b a : Nat} {v : Byte} (h : (putBytes b [v] s).byteAt a ≠ s.byteAt a) :
    b = a ∧ (putBytes b [v] s).byteAt a = v := by
  have hba : b = a := by
    by_contra hn
    exact h (byteAt_putBytes_outside [v] s (by simp only [List.length_singleton]; omega))
  subst hba
  exact ⟨rfl, byteAt_putBytes_inside [v] s b 0 (by simp)⟩

theorem writeStatus_mem (v : Byte) (s : State) : (writeStatus v s).mem = s.mem := by
  unfold writeStatus
  split <;> rfl

/-- A host write changes a buffer byte only when it is accepted, and then the byte of TXP or RXB that it names. -/
theorem writeEffect_changes_byte {s t : State} {off : Offset} {v : Byte} {a : Nat} (he : WriteEffect s off v t)
    (h : t.byteAt a ≠ s.byteAt a) : hostBuffer a ∧ s.busy = false ∧ off.toNat = a ∧ t.byteAt a = v := by
  cases he with
  | accepted _ hb ha =>
    cases ha with
    | buffer ho =>
      obtain ⟨rfl, hv⟩ := putBytes_one_changes_byte h
      exact ⟨ho, hb, rfl, hv⟩
    | _ => exact absurd (byteAt_congr rfl a) h
  | status => exact absurd (byteAt_congr (writeStatus_mem v s) a) h
  | _ => exact absurd (byteAt_congr rfl a) h

/-- The pending byte of an operation is the one its instruction encodes to (30_encoding.md R91). -/
theorem pending_of_decodeCmd8 {s : State} {v b : Byte} {i : Instr} (hp : s.pending = some v)
    (hd : decodeCmd8 v = .ok i) (hi : encode i = .cmd8 b) : s.pending = some b := by
  rw [encode_of_decodeCmd8 hd] at hi
  cases hi
  exact hp

/-- Settles O46, by the agent that moves and by what it may store. -/
theorem bufferBytesChangeOnlyByTheirWriters : Obligations.BufferBytesChangeOnlyByTheirWriters := by
  intro s t a hstep h
  cases stepEffect_of_step hstep with
  | operation hn v i t hp hd he =>
    rcases opEffect_changes_byte he h with ⟨ha, rfl | rfl⟩ | ⟨ha, rfl⟩
    · exact .inr (.inl ⟨ha, codecNext_of_head hn, .inl (pending_of_decodeCmd8 hp hd rfl)⟩)
    · exact .inr (.inl ⟨ha, codecNext_of_head hn, .inr (pending_of_decodeCmd8 hp hd rfl)⟩)
    · exact .inr (.inr ⟨ha, codecNext_of_head hn, pending_of_decodeCmd8 hp hd rfl⟩)
  | write off v hn _ he =>
    obtain ⟨ha, hb, hoff, hv⟩ := writeEffect_changes_byte he h
    exact .inl ⟨ha, hb, off, v, hoff, hv, writeNext_of_head hn⟩
  | _ => exact absurd (byteAt_congr rfl a) h

/-! ## The attitude and the VALID bits (10_state.md R41, R42) -/

/-- The attitude registers and the VALID bits of `t` are those of `s`. -/
def SameReadings (s t : State) : Prop :=
  t.attRoll = s.attRoll ∧ t.attPitch = s.attPitch ∧ t.attYaw = s.attYaw ∧ t.attValid = s.attValid ∧ t.chValid = s.chValid

theorem sameReadings_writeEffect {s t : State} {off : Offset} {v : Byte} (he : WriteEffect s off v t) :
    SameReadings s t := by
  cases he with
  | accepted _ _ ha => cases ha <;> exact ⟨rfl, rfl, rfl, rfl, rfl⟩
  | status => unfold writeStatus; split <;> exact ⟨rfl, rfl, rfl, rfl, rfl⟩
  | _ => exact ⟨rfl, rfl, rfl, rfl, rfl⟩

/-- An operation leaves the readings alone, or is one of the two decodes that write them with their VALID bit. -/
theorem readings_opEffect {s t : State} {i : Instr} (he : OpEffect s i t) :
    SameReadings s t ∨ (i = .decodeAttitude ∧ 12 ≤ receivedCount s ∧ t = attitudeDecoded s) ∨
    (i = .decodeChannels ∧ t = channelsDecoded s) := by
  cases he with
  | attitude h => exact .inr (.inl ⟨rfl, h, rfl⟩)
  | ch => exact .inr (.inr ⟨rfl, rfl⟩)
  | _ => exact .inl ⟨rfl, rfl, rfl, rfl, rfl⟩

/-- Everything a step can do to the readings. -/
theorem readings_step {s t : State} (h : step s = .next t) :
    SameReadings s t ∨
    (codecNext s ∧ s.pending = some 0x04#8 ∧ 12 ≤ received s ∧ t = complete (attitudeDecoded s.turnTaken)) ∨
    t = complete (channelsDecoded s.turnTaken) ∨ ∃ rest, s.turns = .reset :: rest := by
  cases stepEffect_of_step h with
  | operation hn v i u hp hd he =>
    rcases readings_opEffect he with hsame | ⟨rfl, hn12, rfl⟩ | ⟨-, rfl⟩
    · exact .inl hsame
    · exact .inr (.inl ⟨codecNext_of_head hn, pending_of_decodeCmd8 hp hd rfl, hn12, rfl⟩)
    · exact .inr (.inr (.inl rfl))
  | write _ _ _ _ he => exact .inl (sameReadings_writeEffect (s := s.turnTaken) he)
  | reset hn => exact .inr (.inr (.inr (resetNext_of_head hn)))
  | _ => exact .inl ⟨rfl, rfl, rfl, rfl, rfl⟩

/-- Settles O47: of the events that write readings, only DECODE_ATTITUDE and a reset reach the attitude. -/
theorem attitudeChangesOnlyTogether : Obligations.AttitudeChangesOnlyTogether := by
  intro s t hstep h
  rcases readings_step hstep with ⟨hr, hp, hy, hv, -⟩ | ⟨hn, hpend, h12, rfl⟩ | rfl | hreset
  · simp [hr, hp, hy, hv] at h
  · exact .inl ⟨hn, hpend, h12, rfl, rfl, rfl, rfl⟩
  · exact absurd h (by simp [channelsDecoded, State.turnTaken])
  · exact .inr hreset

/-- Settles O48: the decodes that write readings set their VALID bit and keep the other. -/
theorem validBitsClearedOnlyByReset : Obligations.ValidBitsClearedOnlyByReset := by
  intro s t hstep hno
  rcases readings_step hstep with ⟨-, -, -, ha, hc⟩ | ⟨-, -, -, rfl⟩ | rfl | ⟨rest, hreset⟩
  · rw [ha, hc]
    exact ⟨id, id⟩
  · exact ⟨fun _ => rfl, id⟩
  · exact ⟨id, fun _ => rfl⟩
  · exact absurd hreset (hno rest)

/-! ## OVERRUN (10_state.md R29, 60_exceptions.md R183) -/

theorem overrun_opEffect {s t : State} {i : Instr} (he : OpEffect s i t) : t.overrun = s.overrun := by cases he <;> rfl

/-- A host write is lost and sets OVERRUN, clears it by bit 1 of STATUS, or leaves it. -/
theorem overrun_writeEffect {s t : State} {off : Offset} {v : Byte} (he : WriteEffect s off v t) :
    (s.busy = true ∧ needsIdle off = true ∧ t.overrun = true) ∨
    (off = 0x101#12 ∧ v.getLsbD 1 = true ∧ t.overrun = false) ∨ t.overrun = s.overrun := by
  cases he with
  | lost hi hb => exact .inl ⟨hb, hi, rfl⟩
  | accepted _ _ ha => exact .inr (.inr (by cases ha <;> rfl))
  | status ho =>
    unfold writeStatus
    split
    · exact .inr (.inl ⟨ho, ‹_›, rfl⟩)
    · exact .inr (.inr rfl)
  | ignored => exact .inr (.inr rfl)

/-- Everything a step can do to OVERRUN. -/
theorem overrun_step {s t : State} (h : step s = .next t) :
    (s.busy = true ∧ (∃ off v, writeNext s off v ∧ needsIdle off = true) ∧ t.overrun = true) ∨
    ((∃ v : Byte, v.getLsbD 1 = true ∧ writeNext s 0x101#12 v) ∧ t.overrun = false) ∨
    ((∃ rest, s.turns = .reset :: rest) ∧ t.overrun = false) ∨ t.overrun = s.overrun := by
  cases stepEffect_of_step h with
  | operation _ _ _ u _ _ he => exact .inr (.inr (.inr (overrun_opEffect (s := s.turnTaken) (t := u) he)))
  | write off v hn _ he =>
    rcases overrun_writeEffect he with ⟨hb, hi, ht⟩ | ⟨rfl, hv, ht⟩ | ht
    · exact .inl ⟨hb, ⟨off, v, writeNext_of_head hn, hi⟩, ht⟩
    · exact .inr (.inl ⟨⟨v, hv, writeNext_of_head hn⟩, ht⟩)
    · exact .inr (.inr (.inr ht))
  | reset hn => exact .inr (.inr (.inl ⟨resetNext_of_head hn, rfl⟩))
  | _ => exact .inr (.inr (.inr rfl))

/-- Settles O49: of the four things a step can do to OVERRUN, one sets it and two clear it. -/
theorem overrunSetAndClearedOnlyByHost : Obligations.OverrunSetAndClearedOnlyByHost := by
  intro s t hstep
  rcases overrun_step hstep with ⟨hb, hw, ht⟩ | ⟨hw, ht⟩ | ⟨hr, ht⟩ | ht
  · exact ⟨fun _ _ => ⟨hb, hw⟩, fun _ h0 => by simp [ht] at h0⟩
  · exact ⟨fun _ h1 => by simp [ht] at h1, fun _ _ => .inl hw⟩
  · exact ⟨fun _ h1 => by simp [ht] at h1, fun _ _ => .inr hr⟩
  · exact ⟨fun h0 h1 => by simp [ht, h0] at h1, fun h1 h0 => by simp [ht, h1] at h0⟩

end Sys2Proof.Machine
end

section
/-! PROOFS. The family of 20_memory.md: what the host reads (O35), what an idle block makes of a write (O36, O38, O39,
O40), what a busy one does (O37, O42), a wait that follows the codec's step (O43), and the window's addresses (O45).
Reads and writes of a register go through `locate_reg`, the converse of `locate_at` for the register map. -/

namespace Sys2Proof.Machine

open Sys2Proof.Claims

/-! ## The register map, from the register to its offsets (10_state.md R27) -/

/-- The register map has a row for every register. -/
theorem mem_regMap (r : Reg) : ⟨regOffset r, r, regBytes r⟩ ∈ regMap := by
  cases r with
  | chIn i | chOut i => revert i; decide
  | _ => decide

theorem locate_regMap : ∀ row ∈ regMap, ∀ k < row.bytes,
    locate (BitVec.ofNat 12 (row.offset + k)) = .reg row.reg k := by
  decide

theorem locate_reg {off : Offset} {r : Reg} {k : Nat} (h : off.toNat = regOffset r + k) (hk : k < regBytes r) :
    locate off = .reg r k := by
  have hl := locate_regMap _ (mem_regMap r) k hk
  rwa [← h, BitVec.ofNat_toNat, BitVec.setWidth_eq] at hl

theorem regBytes_pos (r : Reg) : 0 < regBytes r := by cases r <;> simp [regBytes]

/-! ## Reads (20_memory.md R63) -/

theorem memRead_at {s : State} {off : Offset} (r : Reg) (k : Nat) (h : off.toNat = regOffset r + k)
    (hk : k < regBytes r) : memRead s off = getByte (readReg s r) k := memRead_reg (locate_reg h hk)

/-- A register of 8 bits reads as itself. -/
theorem memRead_byteReg {s : State} {off : Offset} {b : Byte} (r : Reg) (h : off.toNat = regOffset r)
    (hb : readReg s r = b.setWidth 16) : memRead s off = b := by
  rw [memRead_at r 0 h (regBytes_pos r), hb, getByte_setWidth]

/-- FLAGS reads with two zeros above its six bits (10_state.md R31). -/
theorem getByte_flags (f : BitVec 6) : getByte (f.setWidth 16) 0 = 0#2 ++ f := by
  apply BitVec.eq_of_toNat_eq
  have := f.isLt
  rw [BitVec.toNat_append, getByte, BitVec.extractLsb'_toNat, BitVec.toNat_setWidth]
  simp
  omega

theorem memRead_txp (s : State) {off : Offset} (h : off.toNat < 0x100) : memRead s off = s.txp off.toNat := by
  rw [memRead, locate_txp h]

theorem memRead_rxb (s : State) {off : Offset} (h1 : 0x200 ≤ off.toNat) (h2 : off.toNat < 0x400) :
    memRead s off = s.rxb (off.toNat - 0x200) := by
  rw [memRead, locate_rxb h1 h2]

theorem memRead_txf (s : State) {off : Offset} (h1 : 0x400 ≤ off.toNat) (h2 : off.toNat < 0x505) :
    memRead s off = s.txf (off.toNat - 0x400) := by
  rw [memRead, locate_txf h1 h2]

theorem memRead_rxp (s : State) {off : Offset} (h1 : 0x600 ≤ off.toNat) (h2 : off.toNat < 0x700) :
    memRead s off = s.rxp (off.toNat - 0x600) := by
  rw [memRead, locate_rxp h1 h2]

theorem memRead_gap (s : State) {off : Offset}
    (h : 0x117 ≤ off.toNat ∧ off.toNat ≤ 0x11F ∨ 0x140 ≤ off.toNat ∧ off.toNat ≤ 0x1FF ∨
      0x505 ≤ off.toNat ∧ off.toNat ≤ 0x5FF ∨ 0x700 ≤ off.toNat) : memRead s off = 0x00#8 := by
  rw [memRead, locate_gap h]

/-- Settles O35: RD8 answers `memRead`, whose value is looked up region by region and register by register. -/
theorem readReturnsWindowByte : Obligations.ReadReturnsWindowByte := by
  intro s off
  refine ⟨memRead s off, rfl, fun i hi h => ?txp, fun i hi h => ?rxb, fun i hi h => ?txf, fun i hi h => ?rxp,
    fun h => memRead_byteReg .cmd h rfl,
    fun h => memRead_byteReg .status h rfl,
    fun h => memRead_byteReg .result h rfl,
    fun h => (memRead_at .flags 0 h (by decide)).trans (getByte_flags _),
    fun h => memRead_at .code 0 h (by decide), fun h => memRead_at .code 1 h (by decide),
    fun h => memRead_byteReg .len h rfl, fun h => memRead_byteReg .chCount h rfl,
    fun h => memRead_at .rxcnt 0 h (by decide), fun h => memRead_at .rxcnt 1 h (by decide),
    fun h => memRead_at .txcnt 0 h (by decide), fun h => memRead_at .txcnt 1 h (by decide),
    fun h => memRead_byteReg .rxCode h rfl, fun h => memRead_byteReg .rxLen h rfl,
    fun h => memRead_byteReg .rxChk h rfl, fun h => memRead_byteReg .calcChk h rfl,
    fun h => memRead_at .attRoll 0 h (by decide), fun h => memRead_at .attRoll 1 h (by decide),
    fun h => memRead_at .attPitch 0 h (by decide), fun h => memRead_at .attPitch 1 h (by decide),
    fun h => memRead_at .attYaw 0 h (by decide), fun h => memRead_at .attYaw 1 h (by decide),
    fun h => memRead_byteReg .valid h rfl,
    fun i => ⟨fun h => memRead_at (.chIn i) 0 h Nat.two_pos,
      fun h => memRead_at (.chIn i) 1 (by simp only [regOffset]; omega) Nat.one_lt_two⟩,
    fun i => ⟨fun h => memRead_at (.chOut i) 0 h Nat.two_pos,
      fun h => memRead_at (.chOut i) 1 (by simp only [regOffset]; omega) Nat.one_lt_two⟩,
    memRead_gap s⟩
  case txp => rw [memRead_txp s (by omega), h]
  case rxb => rw [memRead_rxb s (by omega) (by omega), h, Nat.add_sub_cancel_left]
  case txf => rw [memRead_txf s (by omega) (by omega), h, Nat.add_sub_cancel_left]
  case rxp => rw [memRead_rxp s (by omega) (by omega), h, Nat.add_sub_cancel_left]

/-! ## Writes at any time (20_memory.md R64, R65) -/

theorem exec_wr8 (off : Offset) (v : Byte) (s : State) : exec (.wr8 off v) s = .next (memWrite s off v) := rfl

theorem writeStatus_eq (v : Byte) (s : State) :
    writeStatus v s = { s with overrun := if v.getLsbD 1 = true then false else s.overrun } := by
  unfold writeStatus
  split <;> rfl

theorem memWrite_status {off : Offset} (h : off.toNat = 0x101) (v : Byte) (s : State) :
    memWrite s off v = { s with overrun := if v.getLsbD 1 = true then false else s.overrun } :=
  (memWrite_reg (locate_reg (r := .status) (k := 0) h (by decide))).trans (writeStatus_eq v s)

theorem needsIdle_of_readOnly {off : Offset} (h : readOnly off.toNat) : needsIdle off = false := by
  rw [Bool.eq_false_iff, Ne, needsIdle_iff]
  unfold readOnly at h
  omega

theorem writeEffect_readOnly {s t : State} {off : Offset} {v : Byte} (h : readOnly off.toNat)
    (he : WriteEffect s off v t) : t = s := by
  have hn := needsIdle_of_readOnly h
  cases he with
  | lost hi | accepted hi => rw [hn] at hi; cases hi
  | status ho => subst ho; exact absurd h (by unfold readOnly; decide)
  | ignored => rfl

/-- Settles O38: a read-only offset needs no idle block and is not STATUS, so of the four effects of a write only the
empty one is left. -/
theorem readOnlyWriteHasNoEffect : Obligations.ReadOnlyWriteHasNoEffect :=
  fun s off v h => congrArg Host.Outcome.next (writeEffect_readOnly h (memWrite_effect s off v))

/-! ## Writes to an idle block (20_memory.md R64, R66) -/

theorem memWrite_buffer (s : State) {off : Offset} (h : hostBuffer off.toNat) (v : Byte) :
    memWrite s off v = whenIdle s (putBytes off.toNat [v] s) := by
  rcases h with h | ⟨h1, h2⟩
  · rw [memWrite, locate_txp h]
    simp only [txpBase, Nat.zero_add]
  · rw [memWrite, locate_rxb h1 h2]
    simp only [rxbBase, Nat.add_sub_cancel' h1]

theorem exec_wr8_buffer {s : State} {off : Offset} (hb : s.busy = false) (h : hostBuffer off.toNat) (v : Byte) :
    exec (.wr8 off v) s = .next (putBytes off.toNat [v] s) := by
  rw [exec_wr8, memWrite_buffer s h, whenIdle_idle hb]

/-- What an idle block makes of a write to a register that only an idle block accepts. -/
theorem exec_wr8_reg {s t : State} {off : Offset} {v : Byte} (hb : s.busy = false) (r : Reg) (k : Nat)
    (h : off.toNat = regOffset r + k) (hk : k < regBytes r) (ht : writeReg s r k v = whenIdle s t) :
    exec (.wr8 off v) s = .next t := by
  rw [exec_wr8, memWrite_reg (locate_reg h hk), ht, whenIdle_idle hb]

/-- Settles O36: TXP and RXB by the laws of the cells, each register by its row of the map, the rest by O38. -/
theorem idleWriteStoresByte : Obligations.IdleWriteStoresByte := by
  intro s off v hb
  refine ⟨fun h => ⟨_, exec_wr8_buffer hb h v, rfl, ?stored, fun a ha => ?kept⟩,
    fun h => exec_wr8_reg hb .cmd 0 h (by decide) rfl,
    fun h => exec_wr8_reg hb .code 0 h (by decide) rfl, fun h => exec_wr8_reg hb .code 1 h (by decide) rfl,
    fun h => exec_wr8_reg hb .len 0 h (by decide) rfl, fun h => exec_wr8_reg hb .chCount 0 h (by decide) rfl,
    fun h => exec_wr8_reg hb .rxcnt 0 h (by decide) rfl, fun h => exec_wr8_reg hb .rxcnt 1 h (by decide) rfl,
    fun i => ⟨fun h => exec_wr8_reg hb (.chIn i) 0 h Nat.two_pos rfl,
      fun h => exec_wr8_reg hb (.chIn i) 1 (by simp only [regOffset]; omega) Nat.one_lt_two rfl⟩,
    fun h => congrArg Host.Outcome.next (memWrite_status h v s),
    readOnlyWriteHasNoEffect s off v⟩
  case stored => exact byteAt_putBytes_inside [v] s off.toNat 0 (by simp)
  case kept => exact byteAt_putBytes_outside [v] s (by simp only [List.length_singleton]; omega)

theorem exec_wr8_code {s : State} {off : Offset} {k : Nat} (hb : s.busy = false) (h : off.toNat = 0x104 + k)
    (hk : k < 2) (v : Byte) : exec (.wr8 off v) s = .next { s with code := setByte s.code k v } :=
  exec_wr8_reg hb .code k h hk rfl

/-- Settles O40: each write sets its own byte of CODE, and setting both leaves nothing of the old value. -/
theorem codeBytesMayBeWrittenInEitherOrder : Obligations.CodeBytesMayBeWrittenInEitherOrder := by
  intro s lo hi hb
  have low (u : State) (hu : u.busy = false) := exec_wr8_code (off := 0x104#12) (k := 0) hu rfl (by decide) lo
  have high (u : State) (hu : u.busy = false) := exec_wr8_code (off := 0x105#12) (k := 1) hu rfl (by decide) hi
  refine ⟨_, _, low s hb, (high { s with code := setByte s.code 0 lo } hb).trans ?_,
    high s hb, (low { s with code := setByte s.code 1 hi } hb).trans ?_⟩
  · rw [setByte_setByte_01]
  · rw [setByte_setByte_10]

/-! ## Repeated writes (20_memory.md R73) -/

/-- A write that an idle block accepts may be repeated if the update it makes may be: a busy block loses both. -/
theorem whenIdle_repeat (f : State → State) {s : State} (hb : (f s).busy = s.busy) (hf : f (f s) = f s) :
    whenIdle (whenIdle s (f s)) (f (whenIdle s (f s))) = whenIdle s (f s) := by
  cases h : s.busy with
  | false => rw [whenIdle_idle h, whenIdle_idle (hb.trans h), hf]
  | true => simp [whenIdle, h]

theorem writeStatus_repeat (v : Byte) (s : State) : writeStatus v (writeStatus v s) = writeStatus v s := by
  rw [writeStatus_eq, writeStatus_eq]
  split <;> rfl

theorem writeReg_repeat {r : Reg} (hr : r ≠ .cmd) (s : State) (k : Nat) (v : Byte) :
    writeReg (writeReg s r k v) r k v = writeReg s r k v := by
  cases r with
  | cmd => exact absurd rfl hr
  | status => exact writeStatus_repeat v s
  | code => exact whenIdle_repeat (fun u => { u with code := setByte u.code k v }) rfl (by simp [setByte_setByte_same])
  | len => exact whenIdle_repeat (fun u => { u with len := v }) rfl rfl
  | chCount => exact whenIdle_repeat (fun u => { u with chCount := v }) rfl rfl
  | rxcnt =>
    exact whenIdle_repeat (fun u => { u with rxcnt := setByte u.rxcnt k v }) rfl (by simp [setByte_setByte_same])
  | chIn i =>
    exact whenIdle_repeat (fun u => { u with chIn := u.chIn.set i (setByte u.chIn[i] k v) }) rfl
      (by simp [setByte_setByte_same])
  | _ => rfl

theorem putBytes_one_repeat (a : Nat) (v : Byte) (s : State) :
    putBytes a [v] (putBytes a [v] s) = putBytes a [v] s := by
  simp only [putBytes, Memory.writeBytes, Memory.write_write_same]

theorem memWrite_repeat {off : Offset} (h : off.toNat ≠ 0x100) (s : State) (v : Byte) :
    memWrite (memWrite s off v) off v = memWrite s off v := by
  have hat := locate_at off
  unfold memWrite
  cases hl : locate off with
  | txp i => exact whenIdle_repeat (putBytes (txpBase + i) [v]) rfl (putBytes_one_repeat _ v s)
  | rxb i => exact whenIdle_repeat (putBytes (rxbBase + i) [v]) rfl (putBytes_one_repeat _ v s)
  | reg r k =>
    rw [hl] at hat
    obtain ⟨hoff, hk⟩ : off.toNat = regOffset r + k ∧ k < regBytes r := hat
    refine writeReg_repeat (fun hr => h ?_) s k v
    subst hr
    simp only [regOffset, regBytes] at hoff hk
    omega
  | _ => rfl

/-- Settles O39, by the location that is written. -/
theorem repeatedWriteChangesNothing : Obligations.RepeatedWriteChangesNothing := by
  intro s t off v h ht
  cases ht
  exact congrArg Host.Outcome.next (memWrite_repeat h s v)

/-! ## A busy block (20_memory.md R67, R78) -/

theorem writeEffect_lost {s t : State} {off : Offset} {v : Byte} (hb : s.busy = true) (hi : needsIdle off = true)
    (he : WriteEffect s off v t) : t = { s with overrun := true } := by
  cases he with
  | lost => rfl
  | accepted _ hb' => rw [hb] at hb'; cases hb'
  | status _ hi' | ignored hi' => rw [hi] at hi'; cases hi'

/-- Settles O37: a write that needs an idle block is lost, and STATUS is written as ever. -/
theorem busyWriteIsLostAndSetsOverrun : Obligations.BusyWriteIsLostAndSetsOverrun :=
  fun s off v hb =>
    ⟨fun h => congrArg Host.Outcome.next (writeEffect_lost hb ((needsIdle_iff off).2 h) (memWrite_effect s off v)),
      fun h => congrArg Host.Outcome.next (memWrite_status h v s)⟩

/-- A host write reaches nothing of a busy block but OVERRUN. -/
theorem writeEffect_busy {s t : State} {off : Offset} {v : Byte} (hb : s.busy = true) (he : WriteEffect s off v t) :
    t = { s with overrun := t.overrun } := by
  cases he with
  | lost | ignored => rfl
  | accepted _ hb' => rw [hb] at hb'; cases hb'
  | status => rw [writeStatus_eq]

/-- A host transaction, read or write, changes nothing of a busy block but OVERRUN and what the host has read. -/
theorem exec_bus_busy {s : State} (hb : s.busy = true) (w : BusWord) :
    ∃ (o : Bool) (new : List Byte),
      exec (decodeBus21 w) s = .next { s with overrun := o, replies := s.replies ++ new } := by
  rcases decodeBus21_cases w with ⟨off, v, hd, -⟩ | ⟨off, hd⟩
  · refine ⟨(memWrite s off v).overrun, [], ?_⟩
    rw [hd, exec_wr8, List.append_nil]
    exact congrArg Host.Outcome.next (writeEffect_busy hb (memWrite_effect s off v))
  · exact ⟨s.overrun, [memRead s off], by rw [hd]; rfl⟩

/-- Settles O42, by induction on the transactions: each leaves the block busy, so the next finds it so too. -/
theorem hostCannotChangeBusyBlock : Obligations.HostCannotChangeBusyBlock := by
  intro ws
  induction ws with
  | nil =>
    rintro s _ - rfl
    exact ⟨s.overrun, [], by rw [List.append_nil]; rfl⟩
  | cons w ws ih =>
    intro s rest hb ht
    obtain ⟨o, new, hw⟩ := exec_bus_busy (s := { s with turns := ws.map .host ++ rest }) hb w
    obtain ⟨o', new', hr⟩ := ih { s with overrun := o, replies := s.replies ++ new, turns := ws.map .host ++ rest }
      rest hb rfl
    refine ⟨o', new ++ new', ?_⟩
    rw [List.length_cons, run_succ _ ((step_host ht).trans hw), hr, List.append_assoc]

/-! ## A wait after the codec's step (20_memory.md R76) -/

theorem replies_opEffect {s t : State} {i : Instr} (he : OpEffect s i t) : t.replies = s.replies := by
  cases he <;> rfl

/-- The codec's step completes what is pending; it takes one turn and answers no read. -/
theorem step_completes {s : State} {rest : List Turn} (hn : s.turns = .codec :: rest) (hp : s.pending ≠ none) :
    ∃ t, step s = .next (complete t) ∧ t.turns = rest ∧ t.replies = s.replies := by
  have htaken : s.turnTaken.turns = rest := congrArg List.tail hn
  obtain ⟨u, hu, he⟩ := step_effect s
  cases he with
  | idle _ hp' => exact absurd hp' hp
  | illegal => exact ⟨_, hu, htaken, rfl⟩
  | operation _ _ _ t _ _ he =>
    exact ⟨t, hu, (turns_opEffect he).trans htaken, replies_opEffect (s := s.turnTaken) he⟩
  | write _ _ hh | read _ _ hh | reset hh => rw [hn] at hh; cases hh

theorem decodeBus21_encodeRd8 (off : Offset) : decodeBus21 (encodeRd8 off) = .rd8 off := by
  rw [decodeBus21_read (encodeRd8_we off), encodeRd8_off]

/-- Bit 0 of STATUS is BUSY (10_state.md R29). -/
theorem waitEnds_statusByte {s : State} (h : s.busy = false) : waitEnds s.statusByte = true := by
  rw [State.statusByte, h]
  cases s.overrun <;> decide

/-- Settles O43: the codec's step ends in `complete`, which clears BUSY, and the read of STATUS that follows finds it
so. -/
theorem waitEndsAfterCodecStep : Obligations.WaitEndsAfterCodecStep := by
  intro s rest ht hp
  obtain ⟨t, hstep, hturns, hreplies⟩ := step_completes (rest := .host (encodeRd8 0x101#12) :: rest) ht hp
  have hread : step (complete t) = .next (reply (complete t).statusByte { complete t with turns := rest }) := by
    rw [step_host (s := complete t) hturns, decodeBus21_encodeRd8]
    exact congrArg (fun b => Host.Outcome.next (reply b { complete t with turns := rest })) (memRead_status _)
  have hrun : core.run 2 s = .next (reply (complete t).statusByte { complete t with turns := rest }) := by
    rw [run_succ 1 hstep, run_succ 0 hread, run_zero]
  exact ⟨_, _, hrun, congrArg (· ++ _) hreplies, waitEnds_statusByte rfl, rfl⟩

/-! ## Host addresses (20_memory.md R60) -/

theorem windowOffset_hostAddress (off : Offset) : windowOffset (hostAddress off) = some off := by
  have hlt : off.toNat < 4096 := off.isLt
  rw [windowOffset, hostAddress, if_pos (by simp only [windowSize]; omega), Nat.add_sub_cancel_left, BitVec.ofNat_toNat,
    BitVec.setWidth_eq]

theorem windowOffset_isSome (addr : Nat) :
    (∃ off, windowOffset addr = some off) ↔ Config.base ≤ addr ∧ addr ≤ Config.base + 0xFFF := by
  unfold windowOffset
  simp only [windowSize]
  split
  · exact ⟨fun _ => by omega, fun _ => ⟨_, rfl⟩⟩
  · exact ⟨fun ⟨_, h⟩ => (nomatch h), fun _ => by omega⟩

/-- Settles O45, by the two bounds of the window and `base`'s own factor 4096. -/
theorem hostAddressesMapToOffsets : Obligations.HostAddressesMapToOffsets :=
  ⟨windowOffset_hostAddress, windowOffset_isSome, Nat.mul_mod_right _ _⟩

end Sys2Proof.Machine
end

section
/-! PROOFS. The family of 30_encoding.md: decode and encode undo each other (O11, O12), which bytes and words decode to
what (O10, O13, O14), the operands ENCODE reads (O22), and the script line wr16 (O44). -/

namespace Sys2Proof.Machine

open Sys2Proof.Claims

/-! ## Decode of encode (30_encoding.md R90, R91, R105) -/

theorem decodeBus21_encodeWr8 (off : Offset) (v : Byte) : decodeBus21 (encodeWr8 off v) = .wr8 off v := by
  rw [decodeBus21_write (encodeWr8_we off v), encodeWr8_off, encodeWr8_data]

/-- An operation's byte is looked up in the map; a transaction's fields are read back from its word. -/
theorem decode_encode (i : Instr) : decode (encode i) = .ok i := by
  cases i with
  | wr8 off v => exact congrArg Except.ok (decodeBus21_encodeWr8 off v)
  | rd8 off => exact congrArg Except.ok (decodeBus21_encodeRd8 off)
  | _ => rfl

/-- Settles O11: every instruction is well-formed, and each is the decoding of its own encoding. -/
theorem decodeOfEncodeIsIdentity : Obligations.DecodeOfEncodeIsIdentity := fun i _ => decode_encode i

/-! ## The CMD8 bytes (30_encoding.md R91, R101) -/

/-- The opcode map has the bytes below 7 and no other. -/
theorem decodeCmd8_operation_or_illegal (v : Byte) :
    (v.toNat < 7 ∧ ∃ i, decodeCmd8 v = .ok i ∧ isOperation i = true) ∨
    (7 ≤ v.toNat ∧ decodeCmd8 v = .error (.illegalOp v)) := by
  rcases decodeCmd8_cases v with ⟨rfl, h⟩ | ⟨rfl, h⟩ | ⟨rfl, h⟩ | ⟨rfl, h⟩ | ⟨rfl, h⟩ | ⟨rfl, h⟩ | ⟨rfl, h⟩ | h
  case inr.inr.inr.inr.inr.inr.inr => exact .inr h
  all_goals exact .inl ⟨by decide, _, h, rfl⟩

theorem decodeCmd8_illegal {v : Byte} (hv : 7 ≤ v.toNat) : decodeCmd8 v = .error (.illegalOp v) := by
  rcases decodeCmd8_operation_or_illegal v with ⟨hlt, -⟩ | ⟨-, h⟩
  · omega
  · exact h

theorem decodeCmd8_operation {v : Byte} (hv : v.toNat < 7) : ∃ i, decodeCmd8 v = .ok i ∧ isOperation i = true := by
  rcases decodeCmd8_operation_or_illegal v with ⟨-, h⟩ | ⟨hge, -⟩
  · exact h
  · omega

/-- Settles O13, by the two sides of the opcode map. -/
theorem illegalBytesAreRejected : Obligations.IllegalBytesAreRejected := by
  refine fun v => ⟨fun hv => decodeCmd8_illegal hv, fun hv => ?_⟩
  obtain ⟨i, hd, hop⟩ := decodeCmd8_operation hv
  exact ⟨i, hd, hop, encode_of_decodeCmd8 hd⟩

/-! ## Encode of decode (30_encoding.md R90, R91) -/

/-- WE is bit 20. -/
theorem extract_we (w : BusWord) : w.extractLsb' 20 1 = BitVec.ofBool (w.getLsbD 20) := by
  ext i hi
  obtain rfl : i = 0 := by omega
  simp

/-- A word that the spec writes is put together again from WE, the offset, and the data or the zeros shown for it. -/
theorem encode_decodeBus21 {w : BusWord} (hw : CodeWord.wf (.bus21 w) = true) : encode (decodeBus21 w) = .bus21 w := by
  cases h : w.getLsbD 20 with
  | true =>
    have hwe : w.extractLsb' 20 1 = 1#1 := (extract_we w).trans (congrArg BitVec.ofBool h)
    rw [decodeBus21_write h, encode, encodeWr8, ← hwe, append_fields]
  | false =>
    have hwe : w.extractLsb' 20 1 = 0#1 := (extract_we w).trans (congrArg BitVec.ofBool h)
    have hdata : w.extractLsb' 0 8 = 0#8 := by simpa [CodeWord.wf, ← BitVec.getLsbD_eq_getElem, h] using hw
    rw [decodeBus21_read h, encode, encodeRd8, ← hwe, ← hdata, append_fields]

/-- Settles O12, by the two formats. -/
theorem encodeOfDecodeIsIdentity : Obligations.EncodeOfDecodeIsIdentity := by
  intro c hc
  cases c with
  | cmd8 v =>
    have hv : v.toNat ≤ 6 := by simpa [CodeWord.wf] using hc
    obtain ⟨i, hd, -⟩ := decodeCmd8_operation (Nat.lt_succ_of_le hv)
    exact ⟨i, hd, encode_of_decodeCmd8 hd⟩
  | bus21 w => exact ⟨decodeBus21 w, rfl, encode_decodeBus21 hc⟩

/-! ## Reads with other data bits, and the listed words (30_encoding.md R90) -/

theorem read_we (off : Offset) (d : Byte) : (0#1 ++ off ++ d).getLsbD 20 = false := by
  rw [BitVec.getLsbD_append, BitVec.getLsbD_append]
  rfl

/-- Settles O14: with WE = 0 only the offset is taken from the word. -/
theorem readIgnoresDataBits : Obligations.ReadIgnoresDataBits := by
  intro off d
  rw [decode, decodeBus21_read (read_we off d), extract_off]

/-- Settles O10: each listed word is an encoding, an illegal byte, or a read with other data bits. -/
theorem listedWordsDecode : Obligations.ListedWordsDecode :=
  ⟨decode_encode .nop, decode_encode .encode, decode_encode .encodeChannels, decode_encode .decodeFrame,
    decode_encode .decodeAttitude, decode_encode .decodeChannels, decode_encode .checkReady,
    (illegalBytesAreRejected 0x07#8).1 (by decide), decode_encode (.wr8 0x104#12 0x6C#8),
    decode_encode (.wr8 0x20B#12 0x12#8), decode_encode (.rd8 0x102#12), readIgnoresDataBits 0x102#12 0xFF#8⟩

/-! ## ENCODE's operands (30_encoding.md R92) -/

theorem opEffect_of_exec_encode {s t : State} (h : exec .encode s = .next t) : OpEffect s .encode t := by
  obtain ⟨u, hu, he⟩ := execEncode_effect s
  rw [hu] at h
  cases h
  exact he

/-- ENCODE's payload depends on LEN and on the bytes of TXP below it. -/
theorem encodePayload_congr {s u : State} (hl : s.len = u.len) (hp : ∀ j < s.len.toNat, s.txp j = u.txp j) :
    encodePayload s = encodePayload u := by
  rw [encodePayload, encodePayload, ← hl]
  exact bytesAt_congr hp

/-- The bytes that TXCNT counts are those of the frame sent, whatever TXF held before. -/
theorem txf_sendFrame_of_lt_txcnt {fr : List Byte} (s u : State) {j : Nat} (h : j < (sendFrame fr s).txcnt.toNat) :
    (sendFrame fr s).txf j = (sendFrame fr u).txf j := by
  have hj : j < fr.length := by
    rw [sendFrame_txcnt, BitVec.toNat_ofNat] at h
    exact h.trans_le (Nat.mod_le _ _)
  rw [txf_sendFrame fr s j hj, txf_sendFrame fr u j hj]

/-- Settles O22: CODE decides in both states alike whether ENCODE raises; when it does not, both send one frame. -/
theorem encodeReadsOnlyItsOperands : Obligations.EncodeReadsOnlyItsOperands := by
  intro s u s' u' hc hl hp hs hu
  have hpay := encodePayload_congr hl hp
  cases opEffect_of_exec_encode hs with
  | encodeRaise hraise =>
    cases opEffect_of_exec_encode hu with
    | encodeRaise => exact ⟨rfl, rfl, rfl, fun j hj => absurd hj (Nat.not_lt_zero j)⟩
    | encode hlt => rw [hc] at hraise; omega
  | encode hlt =>
    cases opEffect_of_exec_encode hu with
    | encodeRaise hraise => rw [hc] at hlt; omega
    | encode =>
      rw [← hc, ← hpay]
      exact ⟨rfl, rfl, rfl, fun j hj => txf_sendFrame_of_lt_txcnt s u hj⟩

/-! ## The script line wr16 (30_encoding.md R105) -/

theorem run_write (k : Nat) {s t : State} {off : Offset} {v : Byte} {rest : List Turn}
    (hn : s.turns = .host (encodeWr8 off v) :: rest) (ht : exec (.wr8 off v) { s with turns := rest } = .next t) :
    core.run (k + 1) s = core.run k t := by
  apply run_succ
  rw [step_host hn, decodeBus21_encodeWr8, ht]

/-- The two turns of wr16 are a write of the low byte and, one offset on, of the high byte. -/
theorem run_wr16 {s t u : State} {off : Nat} {v : Half} {rest : List Turn}
    (hn : s.turns = (ScriptLine.wr16 off v).turns ++ rest)
    (hlow : ∀ l, exec (.wr8 (BitVec.ofNat 12 off) (v.extractLsb' 0 8)) { s with turns := l } =
      .next { t with turns := l })
    (hhigh : exec (.wr8 (BitVec.ofNat 12 (off + 1)) (v.extractLsb' 8 8)) { t with turns := rest } = .next u) :
    core.run 2 s = .next u :=
  (run_write 1 hn (hlow _)).trans (run_write 0 rfl hhigh)

/-- A register whose two bytes are set to those of `v` holds `v`, whatever it held before. -/
theorem setByte_both (h v : Half) : setByte (setByte h 0 (v.extractLsb' 0 8)) 1 (v.extractLsb' 8 8) = v := by
  have hboth : v.extractLsb' 8 8 ++ v.extractLsb' 0 8 = v.extractLsb' 0 16 :=
    BitVec.extractLsb'_append_extractLsb'_eq_extractLsb' rfl
  rw [setByte_setByte_01, hboth, BitVec.extractLsb'_eq_self]

/-- Settles O44: the two writes set the register's two bytes and leave nothing of the old value. -/
theorem wr16WritesWholeRegister : Obligations.Wr16WritesWholeRegister := by
  intro s v rest hb
  refine ⟨fun hn => ?code, fun hn => ?rxcnt, fun i hn => ?chIn⟩
  case code =>
    refine (run_wr16 (t := { s with code := setByte s.code 0 (v.extractLsb' 0 8) }) hn
      (fun _ => exec_wr8_reg hb .code 0 rfl Nat.two_pos rfl)
      (exec_wr8_reg hb .code 1 rfl Nat.one_lt_two rfl)).trans ?_
    rw [setByte_both]
  case rxcnt =>
    refine (run_wr16 (t := { s with rxcnt := setByte s.rxcnt 0 (v.extractLsb' 0 8) }) hn
      (fun _ => exec_wr8_reg hb .rxcnt 0 rfl Nat.two_pos rfl)
      (exec_wr8_reg hb .rxcnt 1 rfl Nat.one_lt_two rfl)).trans ?_
    rw [setByte_both]
  case chIn =>
    have hoff : ∀ k < 2, (BitVec.ofNat 12 (0x120 + 2 * i.val + k)).toNat = regOffset (.chIn i) + k := by
      intro k hk
      rw [BitVec.toNat_ofNat, Nat.mod_eq_of_lt (by omega), regOffset]
    refine (run_wr16 (t := { s with chIn := s.chIn.set i (setByte s.chIn[i] 0 (v.extractLsb' 0 8)) }) hn
      (fun _ => exec_wr8_reg hb (.chIn i) 0 (hoff 0 Nat.two_pos) Nat.two_pos rfl)
      (exec_wr8_reg hb (.chIn i) 1 (hoff 1 Nat.one_lt_two) Nat.one_lt_two rfl)).trans ?_
    simp [setByte_both]

end Sys2Proof.Machine
end

section
/-! PROOFS. The family of 40_encode.md: ENCODE (O18, O19, O20), ENCODE_CHANNELS (O23, O24, O25), and ENCODE's frame sent
back as a response through DECODE_FRAME (O30). The two encodes send the same kind of frame, so what a sent frame leaves
in TXF is said once, for any code and payload. -/

namespace Sys2Proof.Machine

open Sys2Proof.Claims

/-! ## The outcomes of the encodes (40_encode.md R121 to R123, R128, R129) -/

theorem exec_encode_raise {s : State} (h : 255 ≤ s.code.toNat) :
    exec .encode s = .next { s with result := 1#8, txcnt := 0#16, flags := 0#6 } := if_pos h

theorem exec_encode_send {s : State} (h : s.code.toNat < 255) :
    exec .encode s = .next (sendFrame (requestFrame (s.code.setWidth 8) (encodePayload s)) s) := if_neg (Nat.not_le.2 h)

theorem exec_encodeChannels_raise {s : State} (h : s.chCount ≠ 8#8) :
    exec .encodeChannels s = .next { s with result := 3#8, txcnt := 0#16, flags := 0#6 } :=
  if_pos fun h8 => h (BitVec.eq_of_toNat_eq h8)

theorem exec_encodeChannels_send {s : State} (h : s.chCount = 8#8) :
    exec .encodeChannels s = .next (sendFrame (requestFrame msgSetRc (channelPayload s)) s) :=
  if_neg (Classical.not_not.2 (congrArg BitVec.toNat h))

/-- Settles O19: the raising ENCODE leaves RESULT 1, and the one that sends leaves RESULT 0. -/
theorem encodeRaisesExactlyOnV2Codes : Obligations.EncodeRaisesExactlyOnV2Codes := by
  refine fun s => ⟨exec_encode_raise, fun t ht => ?_⟩
  cases opEffect_of_exec_encode ht with
  | encodeRaise hc => exact iff_of_true rfl hc
  | encode hc => exact iff_of_false (by decide : ResultCode.ok.toByte ≠ 1#8) (Nat.not_le.2 hc)

/-- Settles O24: the raising ENCODE_CHANNELS leaves RESULT 3, and the one that sends leaves RESULT 0. -/
theorem encodeChannelsRaisesOnOtherCounts : Obligations.EncodeChannelsRaisesOnOtherCounts := by
  refine fun s => ⟨exec_encodeChannels_raise, fun t ht => ?_⟩
  by_cases h : s.chCount = 8#8
  · rw [exec_encodeChannels_send h] at ht
    cases ht
    exact iff_of_false (by decide : ResultCode.ok.toByte ≠ 3#8) (Classical.not_not.2 h)
  · rw [exec_encodeChannels_raise h] at ht
    cases ht
    exact iff_of_true rfl h

/-! ## The checksum (00_scope.md R9) -/

theorem xorUpTo_congr {f g : Nat → Byte} {n : Nat} (h : ∀ j < n, f j = g j) : xorUpTo f n = xorUpTo g n := by
  induction n with
  | zero => rfl
  | succ n ih => rw [xorUpTo, xorUpTo, ih fun j hj => h j (Nat.lt_succ_of_lt hj), h n n.lt_succ_self]

/-- The XOR of a run of bytes, split after the first `m` of them. -/
theorem xorUpTo_add (f : Nat → Byte) (m n : Nat) :
    xorUpTo f (m + n) = xorUpTo f m ^^^ xorUpTo (fun j => f (m + j)) n := by
  induction n with
  | zero => simp [xorUpTo]
  | succ n ih => rw [← Nat.add_assoc, xorUpTo, xorUpTo, ih, BitVec.xor_assoc]

/-- The model's checksum, a fold over the payload, is the XOR of the payload's bytes one by one. -/
theorem xor8_eq_xorUpTo (l c : Byte) (p : List Byte) {f : Nat → Byte} (h : ∀ i (hi : i < p.length), f i = p[i]) :
    xor8 l c p = l ^^^ c ^^^ xorUpTo f p.length := by
  induction p using List.reverseRecOn with
  | nil => simp [xor8_nil, xorUpTo]
  | append_singleton p b ih =>
    have hinit : ∀ i (hi : i < p.length), f i = p[i] := fun i hi =>
      (h i (by simp; omega)).trans (List.getElem_append_left hi)
    have hlast : f p.length = b := (h p.length (by simp)).trans (by simp)
    rw [xor8_concat, ih hinit, List.length_append, List.length_singleton, xorUpTo, hlast, BitVec.xor_assoc]

/-- A payload that is one list twice over leaves no trace in the checksum. -/
theorem xor8_append_self (l c : Byte) (p : List Byte) : xor8 l c (p ++ p) = l ^^^ c := by
  rw [xor8, List.foldl_append, foldl_xor, foldl_xor p (l ^^^ c), BitVec.xor_assoc, BitVec.xor_self, BitVec.xor_zero]

/-! ## What a request frame leaves in TXF (30_encoding.md R94) -/

section Sent

variable (c : Byte) (p : List Byte) (s : State)

theorem txf_send_header :
    (sendFrame (requestFrame c p) s).txf 0 = 0x24#8 ∧ (sendFrame (requestFrame c p) s).txf 1 = 0x4D#8 ∧
    (sendFrame (requestFrame c p) s).txf 2 = 0x3C#8 ∧
    (sendFrame (requestFrame c p) s).txf 3 = BitVec.ofNat 8 p.length ∧ (sendFrame (requestFrame c p) s).txf 4 = c := by
  have hlen : ∀ i < 5, i < (requestFrame c p).length := fun i hi => by rw [length_requestFrame]; omega
  obtain ⟨h0, h1, h2, h3, h4⟩ := requestFrame_header c p hlen
  exact ⟨(txf_sendFrame _ s 0 _).trans h0, (txf_sendFrame _ s 1 _).trans h1, (txf_sendFrame _ s 2 _).trans h2,
    (txf_sendFrame _ s 3 _).trans h3, (txf_sendFrame _ s 4 _).trans h4⟩

theorem txf_send_payload {i : Nat} (hi : i < p.length) : (sendFrame (requestFrame c p) s).txf (5 + i) = p[i] :=
  have hlen : 5 + i < (requestFrame c p).length := by rw [length_requestFrame]; omega
  (txf_sendFrame _ s _ hlen).trans (requestFrame_payload c p i hi hlen)

theorem txf_send_checksum :
    (sendFrame (requestFrame c p) s).txf (5 + p.length) = xor8 (BitVec.ofNat 8 p.length) c p :=
  have hlen : 5 + p.length < (requestFrame c p).length := by rw [length_requestFrame]; omega
  (txf_sendFrame _ s _ hlen).trans (requestFrame_checksum c p hlen)

/-- The checksum in the terms of the frame itself: the XOR of its bytes from the length byte on. -/
theorem txf_send_checksum_law :
    xorUpTo (fun j => (sendFrame (requestFrame c p) s).txf (3 + j)) (2 + p.length) =
      (sendFrame (requestFrame c p) s).txf (5 + p.length) := by
  obtain ⟨-, -, -, h3, h4⟩ := txf_send_header c p s
  rw [txf_send_checksum, xor8_eq_xorUpTo _ _ _ fun i hi => txf_send_payload c p s hi, xorUpTo_add]
  congr 1
  · simp [xorUpTo, h3, h4]
  · exact xorUpTo_congr fun j _ => by rw [← Nat.add_assoc]

theorem byteAt_send_outside {a : Nat} (h : a < txfBase ∨ txfBase + (6 + p.length) ≤ a) :
    (sendFrame (requestFrame c p) s).byteAt a = s.byteAt a :=
  byteAt_sendFrame_outside _ s a (by rwa [length_requestFrame])

end Sent

/-! ## ENCODE (40_encode.md R121, R125, R126) -/

/-- The length byte of ENCODE's frame is LEN. -/
theorem ofNat_length_encodePayload (s : State) : BitVec.ofNat 8 (encodePayload s).length = s.len := by
  rw [length_encodePayload, BitVec.ofNat_toNat, BitVec.setWidth_eq]

/-- Settles O18, from what any request frame leaves in TXF, with LEN bytes of TXP as the payload. -/
theorem encodeBuildsRequestFrame : Obligations.EncodeBuildsRequestFrame := by
  refine ⟨fun s => exec_encode_raise, fun s hc => ⟨_, exec_encode_send hc, ?_⟩⟩
  have hbyte := ofNat_length_encodePayload s
  rw [BitVec.setWidth_eq_extractLsb' (by omega : 8 ≤ 16), ← length_encodePayload s]
  obtain ⟨h0, h1, h2, h3, h4⟩ := txf_send_header (s.code.extractLsb' 0 8) (encodePayload s) s
  refine ⟨?registers, h0, h1, h2, h3.trans hbyte, h4, fun j hj => ?payload, ?checksum,
    fun a => byteAt_send_outside _ _ s⟩
  case registers => rw [sendFrame, length_requestFrame]; rfl
  case payload => rw [txf_send_payload _ _ s hj, getElem_encodePayload s j hj]
  case checksum =>
    rw [txf_send_checksum, hbyte, xor8_eq_xorUpTo _ _ _ fun i hi => (getElem_encodePayload s i hi).symm]

/-- Settles O20: the first clause is the law of any request frame, and a byte XORed with itself is 0. -/
theorem encodedFrameMeetsChecksumLaw : Obligations.EncodedFrameMeetsChecksumLaw := by
  intro s t ht hr
  cases opEffect_of_exec_encode ht with
  | encodeRaise => exact absurd hr (by decide : (1#8 : Byte) ≠ 0#8)
  | encode =>
    have hlaw := txf_send_checksum_law (s.code.setWidth 8) (encodePayload s) s
    obtain ⟨-, -, -, h3, -⟩ := txf_send_header (s.code.setWidth 8) (encodePayload s) s
    rw [h3, ofNat_length_encodePayload, ← length_encodePayload]
    refine ⟨hlaw, ?_⟩
    rw [show 3 + (encodePayload s).length = 2 + (encodePayload s).length + 1 by omega, xorUpTo, hlaw,
      show 3 + (2 + (encodePayload s).length) = 5 + (encodePayload s).length by omega, BitVec.xor_self]

/-! ## ENCODE_CHANNELS (40_encode.md R128, R131, R132) -/

/-- Settles O23, from what any request frame leaves in TXF, with the 16 channel bytes as the payload. -/
theorem encodeChannelsBuildsSetFrame : Obligations.EncodeChannelsBuildsSetFrame := by
  refine ⟨fun s => exec_encodeChannels_raise, fun s hc => ⟨_, exec_encodeChannels_send hc, ?_⟩⟩
  have hlen := length_channelPayload s
  have hbytes : ∀ k (hk : k < 16), (sendFrame (requestFrame msgSetRc (channelPayload s)) s).txf (5 + k) =
      (channelPayload s)[k]'(hlen ▸ hk) := fun k hk => txf_send_payload msgSetRc _ s (hlen ▸ hk)
  obtain ⟨h0, h1, h2, h3, h4⟩ := txf_send_header msgSetRc (channelPayload s) s
  refine ⟨?registers, h0, h1, h2, by rw [h3, hlen], h4, fun i => ⟨?low, ?high⟩, ?checksum, fun a ha => ?outside⟩
  case registers => rw [sendFrame, length_requestFrame, hlen]; rfl
  case low => exact (hbytes (2 * i) (by omega)).trans (getElem_channelPayload s i i.isLt).1
  case high =>
    rw [show 6 + 2 * i.val = 5 + (2 * i.val + 1) by omega]
    exact (hbytes (2 * i + 1) (by omega)).trans (getElem_channelPayload s i i.isLt).2
  case checksum =>
    have h := txf_send_checksum msgSetRc (channelPayload s) s
    rwa [xor8_eq_xorUpTo _ _ _ fun i hi => txf_send_payload msgSetRc _ s hi, hlen] at h
  case outside => exact byteAt_send_outside msgSetRc _ s (by rwa [hlen])

/-- Eight equal channels are four equal channels twice over. -/
theorem channelPayload_of_equal {s : State} {v : Half} (h : ∀ i : Fin 8, s.chIn[i] = v) :
    ∃ p, channelPayload s = p ++ p := by
  have hv : s.chIn.toList = List.replicate 4 v ++ List.replicate 4 v := by
    rw [List.replicate_append_replicate, List.eq_replicate_iff]
    refine ⟨Vector.length_toList, fun b hb => ?_⟩
    obtain ⟨i, hi, rfl⟩ := List.getElem_of_mem hb
    rw [Vector.length_toList] at hi
    exact h ⟨i, hi⟩
  exact ⟨_, by rw [channelPayload, hv, List.flatMap_append]⟩

/-- Settles O25: the payload cancels out, which leaves the XOR of the length and code bytes. -/
theorem equalChannelsGiveChecksumD8 : Obligations.EqualChannelsGiveChecksumD8 := by
  intro s t v hc hv ht
  rw [exec_encodeChannels_send hc] at ht
  cases ht
  obtain ⟨p, hp⟩ := channelPayload_of_equal hv
  have h := txf_send_checksum msgSetRc (channelPayload s) s
  rw [length_channelPayload] at h
  rw [h, hp, xor8_append_self]
  rfl

/-! ## ENCODE, then DECODE_FRAME (40_encode.md R127, 41_decode.md R149) -/

/-- RXB holds, and RXCNT counts, exactly one sound response frame of code `c` and payload `p` (30_encoding.md R94). -/
structure HoldsResponse (u : State) (c : Byte) (p : List Byte) : Prop where
  count : receivedCount u = 6 + p.length
  dollar : u.rxb 0 = markDollar
  letterM : u.rxb 1 = markM
  dir : u.rxb 2 = dirResponse
  len : receivedLen u = p.length
  code : u.rxb 4 = c
  payload : receivedPayload u = p
  chk : u.rxb (5 + p.length) = xor8 (BitVec.ofNat 8 p.length) c p

/-- ENCODE's frame, its direction byte replaced, is a sound response frame. -/
theorem holdsResponse_of_echo {s u : State} {c : Byte} {p : List Byte} (hp : p.length < 256)
    (hcnt : u.rxcnt = (sendFrame (requestFrame c p) s).txcnt)
    (hrx : ∀ j < (sendFrame (requestFrame c p) s).txcnt.toNat,
      u.rxb j = if j = 2 then 0x3E#8 else (sendFrame (requestFrame c p) s).txf j) : HoldsResponse u c p := by
  have hn : (sendFrame (requestFrame c p) s).txcnt.toNat = 6 + p.length := by
    rw [sendFrame_txcnt, length_requestFrame, BitVec.toNat_ofNat, Nat.mod_eq_of_lt (by omega)]
  rw [hn] at hrx
  obtain ⟨h0, h1, -, h3, h4⟩ := txf_send_header c p s
  have hlen : receivedLen u = p.length := by
    rw [receivedLen, (hrx 3 (by omega)).trans h3, BitVec.toNat_ofNat, Nat.mod_eq_of_lt hp]
  have hbody : ∀ i ≤ p.length, u.rxb (5 + i) = (sendFrame (requestFrame c p) s).txf (5 + i) := fun i hi =>
    (hrx (5 + i) (by omega)).trans (if_neg (by omega))
  refine
    { count := by rw [receivedCount, hcnt, hn]; exact min_eq_left (by simp only [rxbSize]; omega)
      dollar := (hrx 0 (by omega)).trans h0
      letterM := (hrx 1 (by omega)).trans h1
      dir := hrx 2 (by omega)
      len := hlen
      code := (hrx 4 (by omega)).trans h4
      payload := List.ext_getElem (by rw [length_receivedPayload, hlen]) fun i h h' => ?_
      chk := (hbody _ le_rfl).trans (txf_send_checksum c p s) }
  rw [getElem_receivedPayload, hbody i (Nat.le_of_lt h'), txf_send_payload c p s h']

/-- DECODE_FRAME in its non-raising case. -/
theorem exec_decodeFrame_whole {u : State} (h : 6 + receivedLen u ≤ receivedCount u) (hc : u.rxb 4 ≠ 0xFF#8) :
    exec .decodeFrame u = .next (frameDecoded u) := by
  obtain ⟨t, ht, he⟩ := execDecodeFrame_effect u
  rw [ht]
  cases he with
  | frameShort hs => omega
  | frameCode _ hf => exact absurd hf hc
  | frame => rfl

section Response

variable {u : State} {c : Byte} {p : List Byte} (h : HoldsResponse u c p)
include h

theorem HoldsResponse.exec_decodeFrame (hc : c ≠ 0xFF#8) : exec .decodeFrame u = .next (frameDecoded u) :=
  exec_decodeFrame_whole (by rw [h.count, h.len]) (h.code ▸ hc)

/-- The frame check finds nothing wrong with a sound response frame. -/
theorem HoldsResponse.frameCheck_eq :
    frameCheck u = { code := c, len := BitVec.ofNat 8 p.length, hdr := true, resp := true, chk := true,
                     sum := xor8 (BitVec.ofNat 8 p.length) c p, rchk := xor8 (BitVec.ofNat 8 p.length) c p } := by
  have hlen : u.rxb 3 = BitVec.ofNat 8 p.length := by
    rw [← h.len, receivedLen, BitVec.ofNat_toNat, BitVec.setWidth_eq]
  have hhdr : headerOk u = true := by simp [headerOk, h.dollar, h.letterM, h.dir]
  have hcomplete : frameComplete u = true := by simp [frameComplete, h.count, h.len]
  have hsum : receivedSum u = xor8 (BitVec.ofNat 8 p.length) c p := by rw [receivedSum, hlen, h.code, h.payload]
  simp [frameCheck, hhdr, hcomplete, hsum, h.dir, hlen, h.code, h.len, h.chk]

theorem HoldsResponse.flags_frameDecoded : (frameDecoded u).flags = 0x0F#6 := by
  rw [frameDecoded, commonWrites_flags, h.frameCheck_eq]
  simp [packFlags]

theorem HoldsResponse.rxp_frameDecoded {i : Nat} (hi : i < p.length) : (frameDecoded u).rxp i = p[i] := by
  have hi' : i < receivedLen u := h.len ▸ hi
  rw [Machine.rxp_frameDecoded u i (hi'.trans (receivedLen_lt u)), if_pos hi']
  simp only [← h.payload, getElem_receivedPayload]

end Response

/-- Settles O30: the echoed frame is a sound response frame, so the frame check finds nothing wrong with it, and RXP
takes its payload, which was read from TXP. -/
theorem encodeThenDecodeRecoversPayload : Obligations.EncodeThenDecodeRecoversPayload := by
  intro s t u hc ht hcnt hrx
  rw [exec_encode_send hc] at ht
  cases ht
  have hlen := length_encodePayload s
  have hresp : HoldsResponse u (s.code.setWidth 8) (encodePayload s) :=
    holdsResponse_of_echo (hlen ▸ s.len.isLt) hcnt hrx
  have hcode : (s.code.setWidth 8).toNat = s.code.toNat := by rw [BitVec.toNat_setWidth]; omega
  have hnot255 : s.code.setWidth 8 ≠ 0xFF#8 := fun h255 => Nat.ne_of_lt hc (hcode ▸ congrArg BitVec.toNat h255)
  refine ⟨_, hresp.exec_decodeFrame hnot255, rfl, ?code, ?len, ?chk, fun j hj => ?payload, hresp.flags_frameDecoded⟩
  case code =>
    rw [frameDecoded, commonWrites_rxCode, hresp.frameCheck_eq]
    exact BitVec.eq_of_toNat_eq (by rw [BitVec.toNat_setWidth, hcode]; omega)
  case len => rw [frameDecoded, commonWrites_rxLen, hresp.frameCheck_eq, ofNat_length_encodePayload]
  case chk => rw [frameDecoded, commonWrites_rxChk, commonWrites_calcChk, hresp.frameCheck_eq]
  case payload => rw [hresp.rxp_frameDecoded (hlen ▸ hj), getElem_encodePayload]

end Sys2Proof.Machine
end

section
/-! PROOFS. The family of 41_decode.md: the floors (O26), DECODE_FRAME (O27, O28, O29), DECODE_ATTITUDE (O31, O32),
DECODE_CHANNELS (O33) and CHECK_READY (O34). The four decodes share their truncation and their common writes, so each is
said once; `received`, `lenByte`, `whole` and `rx16` of the statements unfold to the model's own operands. -/

namespace Sys2Proof.Machine

open Sys2Proof.Claims

/-! ## The outcomes of the decodes (41_decode.md R141, R146, R147, R150, R155, R160) -/

theorem exec_decode_below_floor {i : Instr} {f : Nat} (hf : floorOf i = some f) {s : State} (h : received s < f) :
    exec i s = .next { s with result := 2#8, flags := 0#6 } := by
  cases i with
  | decodeFrame | decodeAttitude | decodeChannels | checkReady => cases hf; exact if_pos h
  | _ => cases hf

/-- An operation of the codec does nothing but its listed effects. -/
theorem opEffect_of_exec {v : Byte} {i : Instr} (hv : decodeCmd8 v = .ok i) {s t : State} (h : exec i s = .next t) :
    OpEffect s i t := by
  obtain ⟨u, hu, he⟩ := exec_effect hv s
  rw [hu] at h
  cases h
  exact he

theorem exec_decodeFrame_not_whole {s : State} (h : ¬ whole s) :
    exec .decodeFrame s = .next { s with result := 2#8, flags := 0#6 } := by
  obtain ⟨t, ht, he⟩ := execDecodeFrame_effect s
  rw [ht]
  cases he with
  | frameShort => rfl
  | frameCode hw | frame hw => exact absurd hw h

theorem exec_decodeFrame_code255 {s : State} (h : whole s) (hc : s.rxb 4 = 255#8) :
    exec .decodeFrame s = .next { s with result := 1#8, flags := 0#6 } := by
  obtain ⟨t, ht, he⟩ := execDecodeFrame_effect s
  rw [ht]
  cases he with
  | frameShort hs => exact absurd h (Nat.not_le.2 hs)
  | frameCode => rfl
  | frame _ hne => exact absurd hc hne

theorem exec_decodeAttitude_enough {s : State} (h : 12 ≤ received s) :
    exec .decodeAttitude s = .next (attitudeDecoded s) := if_neg (Nat.not_lt.2 h)

theorem exec_decodeChannels_enough {s : State} (h : 16 ≤ received s) :
    exec .decodeChannels s = .next (channelsDecoded s) := if_neg (Nat.not_lt.2 h)

theorem exec_checkReady_enough {s : State} (h : 12 ≤ received s) :
    exec .checkReady s = .next (readyChecked s) := if_neg (Nat.not_lt.2 h)

/-- DECODE_FRAME's first floor lies below its second one, `6 + L`. -/
theorem not_whole_of_received_lt {s : State} (h : received s < 6 ∨ received s < 6 + lenByte s) : ¬ whole s :=
  Nat.not_le.2 (h.elim (fun h6 => h6.trans_le (Nat.le_add_right _ _)) id)

/-- Settles O26: each decode tests its floor first, and DECODE_FRAME then asks for the whole frame. -/
theorem decodesTruncateBelowTheirFloor : Obligations.DecodesTruncateBelowTheirFloor :=
  ⟨fun _ _ _ hf h => exec_decode_below_floor hf h,
    fun _ h => exec_decodeFrame_not_whole (not_whole_of_received_lt (.inr h))⟩

/-! ## The common writes (41_decode.md R142, R143) -/

theorem headerOk_iff (s : State) : headerOk s = true ↔ header s := by simp [headerOk, header, and_assoc]

theorem frameComplete_iff (s : State) : frameComplete s = true ↔ whole s := decide_eq_true_iff

theorem receivedSum_eq_rxSum (s : State) : receivedSum s = rxSum s := by
  rw [receivedSum, xor8_eq_xorUpTo _ _ _ fun i hi => (getElem_receivedPayload s i hi).symm, length_receivedPayload]
  rfl

/-- The frame check reports the sum and the checksum byte of a whole frame. -/
theorem frameCheck_of_whole {s : State} (h : whole s) :
    (frameCheck s).rchk = s.rxb (5 + lenByte s) ∧ (frameCheck s).sum = rxSum s := by
  rw [← receivedSum_eq_rxSum]
  exact ⟨if_pos ((frameComplete_iff s).2 h), if_pos ((frameComplete_iff s).2 h)⟩

/-- Of a frame that is not whole the frame check reports zeros. -/
theorem frameCheck_of_not_whole {s : State} (h : ¬ whole s) : (frameCheck s).rchk = 0#8 ∧ (frameCheck s).sum = 0#8 :=
  ⟨if_neg (mt (frameComplete_iff s).1 h), if_neg (mt (frameComplete_iff s).1 h)⟩

theorem frameCheck_chk_iff (s : State) :
    (frameCheck s).chk = true ↔ whole s ∧ rxSum s = s.rxb (5 + lenByte s) := by
  rw [← receivedSum_eq_rxSum]
  exact Bool.and_eq_true_iff.trans (and_congr (frameComplete_iff s) beq_iff_eq)

theorem frameCheck_resp_iff (s : State) : (frameCheck s).resp = true ↔ header s ∧ s.rxb 2 = 0x3E#8 :=
  Bool.and_eq_true_iff.trans (and_congr (headerOk_iff s) beq_iff_eq)

/-- The common writes are those of the rules, whatever else the decode has written before them. -/
theorem commonAfter_commonWrites (s u : State) {co sh r : Bool} {codeOk short ready : Prop} (hco : co = true ↔ codeOk)
    (hsh : sh = true ↔ short) (hr : r = true ↔ ready) :
    CommonAfter s (commonWrites (frameCheck s) (packFlags r sh co (frameCheck s)) u) codeOk short ready := by
  refine ⟨rfl, rfl, frameCheck_of_whole, frameCheck_of_not_whole, ?flags, rfl⟩
  obtain ⟨b0, b1, b2, b3, b4, b5⟩ := packFlags_bits r sh co (frameCheck s)
  rw [FlagsAfter, commonWrites_flags, b0, b1, b2, b3, b4, b5]
  exact ⟨headerOk_iff s, frameCheck_resp_iff s, frameCheck_chk_iff s, hco, hsh, hr⟩

/-! ## DECODE_FRAME (41_decode.md R145 to R148) -/

/-- Settles O27: DECODE_FRAME's three outcomes, the last with the bytes it leaves in RXP. -/
theorem decodeFrameExtractsPayload : Obligations.DecodeFrameExtractsPayload := by
  refine ⟨fun s h => exec_decodeFrame_not_whole (not_whole_of_received_lt h), fun s => exec_decodeFrame_code255,
    fun s h hc => ⟨_, exec_decodeFrame_whole h hc, rfl, ?common, fun j hj => ?payload, fun j hj hlt => ?zeros,
      byteAt_frameDecoded_outside s⟩⟩
  case common => exact commonAfter_commonWrites s _ (by simp) (by simp) (by simp)
  case payload => rw [rxp_frameDecoded s j (hj.trans (receivedLen_lt s))]; exact if_pos hj
  case zeros => rw [rxp_frameDecoded s j hlt]; exact if_neg (Nat.not_lt.2 hj)

/-- Among the decodes UNSUPPORTED_VERSION is DECODE_FRAME's, of a whole frame with code byte 255. -/
theorem opEffect_decode_unsupported {s t : State} {i : Instr} {f : Nat} (hf : floorOf i = some f)
    (he : OpEffect s i t) (h1 : t.result = 1#8) : i = .decodeFrame ∧ whole s ∧ s.rxb 4 = 255#8 := by
  cases he with
  | frameCode hw hc => exact ⟨rfl, hw, hc⟩
  | nop | encodeRaise | encode | channelsRaise | channels => cases hf
  | frameShort | attitudeShort | chShort | readyShort =>
    exact absurd h1 (by decide : ResultCode.truncated.toByte ≠ 1#8)
  | frame | attitude | ch | ready => exact absurd h1 (by decide : ResultCode.ok.toByte ≠ 1#8)

/-- DECODE_FRAME truncates exactly the frames that are not whole. -/
theorem opEffect_decodeFrame_truncated_iff {s t : State} (he : OpEffect s .decodeFrame t) :
    t.result = 2#8 ↔ ¬ whole s := by
  cases he with
  | frameShort h => exact iff_of_true rfl (Nat.not_le.2 h)
  | frameCode h => exact iff_of_false (by decide : ResultCode.unsupportedVersion.toByte ≠ 2#8) (not_not_intro h)
  | frame h => exact iff_of_false (by decide : ResultCode.ok.toByte ≠ 2#8) (not_not_intro h)

/-- Settles O28: RESULT 1 comes of one effect of the decodes only, and RESULT 2 of DECODE_FRAME's truncation. -/
theorem decodeFrameRefusesCode255 : Obligations.DecodeFrameRefusesCode255 := by
  refine ⟨fun s t i hi ht h1 => ?others, fun s => ⟨exec_decodeFrame_code255, fun t ht => ?frame⟩⟩
  case others =>
    rcases hi with rfl | rfl | rfl
    · cases (opEffect_decode_unsupported rfl (opEffect_of_exec (v := 0x04#8) rfl ht) h1).1
    · cases (opEffect_decode_unsupported rfl (opEffect_of_exec (v := 0x05#8) rfl ht) h1).1
    · cases (opEffect_decode_unsupported rfl (opEffect_of_exec (v := 0x06#8) rfl ht) h1).1
  case frame =>
    have he : OpEffect s .decodeFrame t := opEffect_of_exec (v := 0x03#8) rfl ht
    refine ⟨opEffect_decodeFrame_truncated_iff he, fun h1 => (opEffect_decode_unsupported rfl he h1).2,
      fun ⟨hw, hc⟩ => ?_⟩
    rw [exec_decodeFrame_code255 hw hc] at ht
    cases ht
    rfl

section Frame

variable {s u : State} (hs : whole s) (hu : whole u) (h : ∀ j < 6 + receivedLen s, s.rxb j = u.rxb j)
include h

theorem receivedLen_congr : receivedLen s = receivedLen u := congrArg BitVec.toNat (h 3 (by omega))

theorem receivedPayload_congr : receivedPayload s = receivedPayload u := by
  have hlen : (receivedPayload s).length = (receivedPayload u).length := by
    rw [length_receivedPayload, length_receivedPayload, receivedLen_congr h]
  refine List.ext_getElem hlen fun i hi _ => ?_
  rw [length_receivedPayload] at hi
  rw [getElem_receivedPayload, getElem_receivedPayload]
  exact h (5 + i) (by omega)

/-- RXP's bytes past the payload are zeros, so no byte past the frame reaches them. -/
theorem rxp_frameDecoded_congr {j : Nat} (hj : j < 256) : (frameDecoded s).rxp j = (frameDecoded u).rxp j := by
  rw [rxp_frameDecoded s j hj, rxp_frameDecoded u j hj, ← receivedLen_congr h]
  split
  · exact h (5 + j) (by omega)
  · rfl

include hs hu

/-- The frame check of a whole frame reads no byte past the frame's checksum. -/
theorem frameCheck_congr : frameCheck s = frameCheck u := by
  have hsum : receivedSum s = receivedSum u := by
    rw [receivedSum, receivedSum, receivedPayload_congr h, h 3 (by omega), h 4 (by omega)]
  have hchk : s.rxb (5 + receivedLen s) = u.rxb (5 + receivedLen u) := by
    rw [← receivedLen_congr h]
    exact h (5 + receivedLen s) (by omega)
  simp only [frameCheck, headerOk, (frameComplete_iff s).2 hs, (frameComplete_iff u).2 hu, hsum, hchk,
    h 0 (by omega), h 1 (by omega), h 2 (by omega), h 3 (by omega), h 4 (by omega)]

end Frame

/-- Settles O29: both states take the same branch by their code byte; when it completes, the frame check and the bytes
of RXP are the same. -/
theorem decodeFrameIgnoresTrailingBytes : Obligations.DecodeFrameIgnoresTrailingBytes := by
  intro s u s' u' hs hu h hs' hu'
  have hcode : s.rxb 4 = u.rxb 4 := h 4 (by omega)
  by_cases hc : s.rxb 4 = 255#8
  · rw [exec_decodeFrame_code255 hs hc] at hs'
    rw [exec_decodeFrame_code255 hu (hcode ▸ hc)] at hu'
    cases hs'
    cases hu'
    exact ⟨rfl, rfl, fun h0 => absurd h0 (by decide : (1#8 : Byte) ≠ 0#8)⟩
  · rw [exec_decodeFrame_whole hs hc] at hs'
    rw [exec_decodeFrame_whole hu (hcode ▸ hc)] at hu'
    cases hs'
    cases hu'
    have hcheck := frameCheck_congr hs hu h
    exact ⟨rfl, congrArg (packFlags false false true) hcheck, fun _ => ⟨hcode, h 3 (by omega),
      congrArg FrameCheck.rchk hcheck, congrArg FrameCheck.sum hcheck, fun j hj => rxp_frameDecoded_congr h hj⟩⟩

/-! ## DECODE_ATTITUDE (41_decode.md R150, R153, R154) -/

/-- Settles O31: the three values and ATT_VALID, then the common writes with expected code 108. -/
theorem decodeAttitudeTakesThreeValues : Obligations.DecodeAttitudeTakesThreeValues :=
  ⟨fun _ h => exec_decode_below_floor rfl h, fun s h => ⟨_, exec_decodeAttitude_enough h, rfl,
    commonAfter_commonWrites s _ beq_iff_eq (by simp) (by simp)⟩⟩

/-- The attitude the host has after a decode, from the received bytes. -/
theorem attitude_attitudeDecoded (s : State) : attitude (attitudeDecoded s) =
    some ⟨((rxbHalf s 5).toInt : Rat) / 10, ((rxbHalf s 7).toInt : Rat) / 10, ((rxbHalf s 9).toInt : Rat)⟩ := rfl

/-- Settles O32: the three values are 100, -50 and 45 as signed numbers. -/
theorem attitudeExampleScales : Obligations.AttitudeExampleScales := by
  intro s h h5 h6 h7 h8 h9 h10
  have hroll : (rxbHalf s 5).toInt = 100 := by rw [rxbHalf, h5, h6]; decide
  have hpitch : (rxbHalf s 7).toInt = -50 := by rw [rxbHalf, h7, h8]; decide
  have hyaw : (rxbHalf s 9).toInt = 45 := by rw [rxbHalf, h9, h10]; decide
  refine ⟨_, exec_decodeAttitude_enough h, ?_⟩
  rw [attitude_attitudeDecoded, hroll, hpitch, hyaw]
  norm_num

/-! ## DECODE_CHANNELS (41_decode.md R155, R156) -/

/-- Settles O33: the eight values and CH_VALID, then the common writes with expected code 105 and SHORT. -/
theorem decodeChannelsTakesEightValues : Obligations.DecodeChannelsTakesEightValues :=
  ⟨fun _ h => exec_decode_below_floor rfl h, fun s h => ⟨_, exec_decodeChannels_enough h, rfl,
    fun i => getElem_rxbChannels s i i.isLt, commonAfter_commonWrites s _ beq_iff_eq decide_eq_true_iff (by simp)⟩⟩

/-! ## CHECK_READY (41_decode.md R160) -/

/-- Settles O34: the common writes alone, with expected code 3 and the sentinel test as READY. -/
theorem checkReadyTestsSentinel : Obligations.CheckReadyTestsSentinel :=
  ⟨fun _ h => exec_decode_below_floor rfl h, fun s h => ⟨_, exec_checkReady_enough h, rfl,
    commonAfter_commonWrites s _ beq_iff_eq (by simp) beq_iff_eq⟩⟩

end Sys2Proof.Machine
end

section
/-! PROOFS. The family of 42_control.md: every step completes (O6), nothing stays pending (O7), what a step runs (O9),
an illegal byte and NOP issued and performed (O15, O16), the operands every operation keeps (O17), and ENCODE performed
twice (O21). The codec's turn is said once, by what is pending; the proofs use its three equations. -/

namespace Sys2Proof.Machine

open Sys2Proof.Claims

/-! ## Progress (42_control.md R170) -/

/-- Whichever agent moves, its event uses up the turn that gave it and no other. -/
theorem turns_stepEffect {s t : State} (he : StepEffect s t) : t.turns = s.turns.tail := by
  cases he with
  | operation _ _ _ u _ _ he => exact turns_opEffect he
  | write _ _ _ _ he => exact turns_writeEffect he
  | _ => rfl

/-- Settles O6: a step has an effect from every state, and each effect leaves the tail of the turns. -/
theorem everyStepCompletes : Obligations.EveryStepCompletes := by
  intro s
  obtain ⟨t, ht, he⟩ := step_effect s
  exact ⟨t, ht, turns_stepEffect he⟩

/-- Of the host writes only an accepted CMD touches BUSY or what is pending, and it sets both. -/
theorem busyAgrees_writeEffect {s t : State} {off : Offset} {v : Byte} (h : s.busyAgrees)
    (he : WriteEffect s off v t) : t.busyAgrees := by
  cases he with
  | accepted _ _ ha =>
    cases ha with
    | cmd => rfl
    | _ => exact h
  | status => rw [writeStatus_eq]; exact h
  | _ => exact h

theorem busyAgrees_stepEffect {s t : State} (h : s.busyAgrees) (he : StepEffect s t) : t.busyAgrees := by
  cases he with
  | idle | read => exact h
  | write _ _ _ _ he => exact busyAgrees_writeEffect (s := s.turnTaken) h he
  | illegal | operation | reset => rfl

/-- With no turn left the codec moves: it completes what is pending, or finds nothing pending. -/
theorem idle_stepEffect {s t : State} (hn : s.turns = []) (h : s.busyAgrees) (he : StepEffect s t) :
    t.pending = none ∧ t.busy = false := by
  cases he with
  | idle _ hp => exact ⟨hp, h.trans (congrArg Option.isSome hp)⟩
  | illegal | operation => exact ⟨rfl, rfl⟩
  | write _ _ hh | read _ _ hh | reset hh => rw [hn] at hh; cases hh

/-- Settles O7, by induction on the turns: each step uses up one and keeps BUSY in agreement, and the last one is the
codec's. -/
theorem nothingStaysPendingForever : Obligations.NothingStaysPendingForever := by
  intro s h
  induction hts : s.turns generalizing s with
  | nil =>
    obtain ⟨t, ht, he⟩ := step_effect s
    obtain ⟨hp, hb⟩ := idle_stepEffect hts h he
    exact ⟨t, run_succ 0 ht, hp, hb, by rw [turns_stepEffect he, hts]; rfl⟩
  | cons x rest ih =>
    obtain ⟨u, hu, he⟩ := step_effect s
    have hrest : u.turns = rest := by rw [turns_stepEffect he, hts]; rfl
    obtain ⟨t, ht, hidle⟩ := ih u (busyAgrees_stepEffect h he) hrest
    exact ⟨t, (run_succ _ hu).trans ht, hidle⟩

/-! ## The codec's turn, by what is pending (42_control.md R170, R172) -/

theorem codecTurn_idle {s : State} (hp : s.pending = none) : codecTurn s = .next s := by
  rw [codecTurn, hp]

theorem codecTurn_operation {s : State} {v : Byte} {i : Instr} (hp : s.pending = some v)
    (hd : decodeCmd8 v = .ok i) : codecTurn s = completing (exec i s) := by
  simp only [codecTurn, hp, hd]

theorem codecTurn_illegal {s : State} {v : Byte} (hp : s.pending = some v) (hv : 7 ≤ v.toNat) :
    codecTurn s = .next (complete (illegalOperation s)) := by
  simp only [codecTurn, hp, decodeCmd8_illegal hv]

/-- Settles O9: the host's turn by its word, the codec's by what is pending. -/
theorem stepRunsDecodedInstruction : Obligations.StepRunsDecodedInstruction := by
  refine ⟨fun s w rest i hn hd => ?host, fun s t v i hn hp hd ht => ?operation, fun s hn hp => ?idle⟩
  case host =>
    cases hd
    exact step_host hn
  case operation =>
    have hexec : exec i s.turnTaken = .next t := ht
    rw [step_codec hn, codecTurn_operation (s := s.turnTaken) hp hd, hexec]
    rfl
  case idle => exact (step_codec hn).trans (codecTurn_idle hp)

/-! ## An operation issued to an idle block and performed (20_memory.md R66, 42_control.md R171, R172) -/

/-- The host's write of CMD issues, and the codec's turn that follows finds what was issued. -/
theorem run_issue_codec {s t : State} {v : Byte} {rest : List Turn} (hb : s.busy = false)
    (hn : s.turns = .host (encodeWr8 0x100#12 v) :: .codec :: rest)
    (ht : codecTurn (issue v { s with turns := rest }) = .next t) : core.run 2 s = .next t := by
  have hissue : exec (.wr8 0x100#12 v) { s with turns := .codec :: rest } =
      .next (issue v { s with turns := .codec :: rest }) := exec_wr8_reg hb .cmd 0 rfl Nat.one_pos rfl
  have hcodec : step (issue v { s with turns := .codec :: rest }) = .next t :=
    (step_codec (.inr ⟨rest, rfl⟩)).trans ht
  exact (run_write 1 hn hissue).trans (run_succ 0 hcodec)

theorem complete_of_idle {s : State} (hb : s.busy = false) (hp : s.pending = none) : complete s = s := by
  cases s
  cases hb
  cases hp
  rfl

/-- Settles O15: the codec reports the illegal byte, and its completion takes back what issuing did to BUSY and to what
is pending. -/
theorem illegalCommandOnlyReports : Obligations.IllegalCommandOnlyReports := by
  intro s v rest hv hb hp hn
  have hdone := complete_of_idle (s := { s with cmd := v, result := 4#8, turns := rest }) hb hp
  exact run_issue_codec hb hn ((codecTurn_illegal rfl hv).trans (congrArg Host.Outcome.next hdone))

/-- Settles O16: NOP's one write, and around it an issue and a completion that together change CMD only. -/
theorem nopOnlyClearsResult : Obligations.NopOnlyClearsResult := by
  refine ⟨fun s => rfl, fun s rest hb hp hn => ?_⟩
  have hdone := complete_of_idle (s := { s with cmd := 0x00#8, result := 0#8, turns := rest }) hb hp
  exact run_issue_codec hb hn ((codecTurn_operation (i := .nop) rfl rfl).trans (congrArg Host.Outcome.next hdone))

/-! ## What operations keep (42_control.md R173) -/

/-- The spec lemma of an operation, for every instruction that is one. -/
theorem exec_operation_effect {i : Instr} (hi : isOperation i = true) (s : State) :
    ∃ t, exec i s = .next t ∧ OpEffect s i t := by
  cases i with
  | nop => exact execNop_effect s
  | encode => exact execEncode_effect s
  | encodeChannels => exact execEncodeChannels_effect s
  | decodeFrame => exact execDecodeFrame_effect s
  | decodeAttitude => exact execDecodeAttitude_effect s
  | decodeChannels => exact execDecodeChannels_effect s
  | checkReady => exact execCheckReady_effect s
  | wr8 | rd8 => cases hi

/-- An operation stores in no register of the host, and in no buffer below TXF. -/
theorem operandsKept_opEffect {s t : State} {i : Instr} (he : OpEffect s i t) : OperandsKept s t := by
  have hregs : t.cmd = s.cmd ∧ t.code = s.code ∧ t.len = s.len ∧ t.chCount = s.chCount ∧ t.rxcnt = s.rxcnt ∧
      t.chIn = s.chIn := by
    cases he <;> exact ⟨rfl, rfl, rfl, rfl, rfl, rfl⟩
  obtain ⟨hcmd, hcode, hlen, hcount, hrxcnt, hchIn⟩ := hregs
  exact ⟨hcmd, overrun_opEffect he, hcode, hlen, hcount, hrxcnt, hchIn,
    fun j hj => byteAt_opEffect he (by simp only [txpBase]; omega),
    fun j hj => byteAt_opEffect he (by simp only [rxbBase]; omega)⟩

/-- The codec's step on any pending byte keeps the operands: the completion writes none, nor does an illegal byte. -/
theorem codecTurn_keeps_operands {s : State} {v : Byte} (hp : s.pending = some v) :
    ∃ t, codecTurn s = .next t ∧ OperandsKept s t := by
  rcases decodeCmd8_operation_or_illegal v with ⟨-, i, hd, -⟩ | ⟨hv, -⟩
  · obtain ⟨t, ht, he⟩ := exec_effect hd s
    have hkept : OperandsKept s t := operandsKept_opEffect he
    exact ⟨complete t, by rw [codecTurn_operation hp hd, ht]; rfl, hkept⟩
  · exact ⟨_, codecTurn_illegal hp hv, rfl, rfl, rfl, rfl, rfl, rfl, rfl, fun _ _ => rfl, fun _ _ => rfl⟩

/-- LEN counts at most the bytes of TXP, so ENCODE's payload is among the operands kept. -/
theorem txp_kept_below_len {s t : State} (h : OperandsKept s t) : ∀ j < s.len.toNat, s.txp j = t.txp j := by
  obtain ⟨-, -, -, -, -, -, -, htxp, -⟩ := h
  exact fun j hj => (htxp j (hj.trans s.len.isLt)).symm

/-- Settles O17: the first two clauses by what an operation keeps; the third because ENCODE reads nothing but what the
ENCODE before it kept (O22). -/
theorem operationsKeepOperands : Obligations.OperationsKeepOperands := by
  refine ⟨fun i s hi => ?operation, fun s v hn hp => ?codec, fun s t u ht hu => ?twice⟩
  case operation =>
    obtain ⟨t, ht, he⟩ := exec_operation_effect hi s
    exact ⟨t, ht, operandsKept_opEffect he⟩
  case codec =>
    rw [step_codec hn]
    exact codecTurn_keeps_operands (s := s.turnTaken) hp
  case twice =>
    have hkept := operandsKept_opEffect (opEffect_of_exec_encode ht)
    have htxp := txp_kept_below_len hkept
    obtain ⟨-, -, hcode, hlen, -⟩ := hkept
    obtain ⟨hcnt, -, -, htxf⟩ := encodeReadsOnlyItsOperands s t t u hcode.symm hlen.symm htxp ht hu
    exact ⟨hcnt.symm, fun j hj => (htxf j hj).symm⟩

/-! ## ENCODE performed twice (42_control.md R173) -/

/-- A frame sent again finds its own bytes in TXF and its own outcome in the registers. -/
theorem sendFrame_repeat {fr : List Byte} {s : State} (h : Memory.wf (sendFrame fr s).mem) :
    sendFrame fr (sendFrame fr s) = sendFrame fr s := by
  have hmem : Memory.writeBytes (sendFrame fr s).mem txfBase fr = (sendFrame fr s).mem :=
    Memory.writeBytes_self h.1 fun i hi => Memory.read_writeBytes_inside fr s.mem txfBase i hi
  exact congrArg (fun m => { sendFrame fr s with mem := m }) hmem

/-- Settles O21: the operands ENCODE kept give the same outcome again, and that outcome is already there. -/
theorem encodeTwiceGivesSameFrame : Obligations.EncodeTwiceGivesSameFrame := by
  intro s t hs ht
  have he := opEffect_of_exec_encode ht
  have hwf := wf_opEffect hs.1 he
  have htxp := txp_kept_below_len (operandsKept_opEffect he)
  cases he with
  | encodeRaise hc => exact exec_encode_raise hc
  | encode hc =>
    have hpayload := encodePayload_congr (s := s) (u := sendFrame _ s) rfl htxp
    refine (exec_encode_send (s := sendFrame _ s) hc).trans (congrArg Host.Outcome.next ?_)
    rw [← hpayload]
    exact sendFrame_repeat hwf

end Sys2Proof.Machine
end

section
/-! PROOFS. The family of 70_reset_and_hazards.md: a reset (O1, O2), the operations right after power-on (O8), the order
of an idle block's writes (O41) and the busy-write rule (O50). A write to an idle block is one of eight stores; those that
reach different registers commute by definition, so only two stores to the same register or buffer need a law. -/

namespace Sys2Proof.Machine

open Sys2Proof.Claims

/-! ## Reset (70_reset_and_hazards.md R200 to R202) -/

theorem registersReset_reset : RegistersReset State.reset := by
  unfold RegistersReset
  decide

/-- A later reset puts the registers at the values of power-on, whatever they held. -/
theorem registersReset_warmReset (s : State) : RegistersReset (warmReset s) := registersReset_reset

/-- Settles O1: a reset turn is a warm reset, which keeps the memory; at power-on no cell has been written. -/
theorem resetSetsRegistersAndKeepsBuffers : Obligations.ResetSetsRegistersAndKeepsBuffers :=
  ⟨fun _ _ hn => ⟨_, step_reset hn, registersReset_warmReset _, byteAt_congr rfl⟩, registersReset_reset, fun _ => rfl⟩

/-- Settles O2, by the two fields a warm reset takes from the state it finds. -/
theorem resetKeepsTheHostSide : Obligations.ResetKeepsTheHostSide := fun _ _ hn => ⟨_, step_reset hn, rfl, rfl⟩

/-! ## The operations right after power-on (70_reset_and_hazards.md R204) -/

theorem chIn_reset (i : Fin 8) : State.reset.chIn[i] = 0x0000#16 := by
  revert i
  decide

/-- The frame of ENCODE with code 0 and no payload. -/
theorem exec_encode_reset : ∃ t, exec .encode State.reset = .next t ∧ t.result = 0#8 ∧ t.txcnt = 6#16 ∧
    [t.txf 0, t.txf 1, t.txf 2, t.txf 3, t.txf 4, t.txf 5] = [0x24#8, 0x4D#8, 0x3C#8, 0x00#8, 0x00#8, 0x00#8] := by
  obtain ⟨t, ht, hregs, h0, h1, h2, h3, h4, -, h5, -⟩ := encodeBuildsRequestFrame.2 State.reset (by decide)
  refine ⟨t, ht, by rw [hregs], by rw [hregs]; rfl, ?_⟩
  have h5' : t.txf 5 = 0x00#8 := h5
  rw [h0, h1, h2, h3, h4, h5']
  rfl

/-- The frame of ENCODE_CHANNELS with CH_COUNT 8 and eight zero channels. -/
theorem exec_encodeChannels_reset : ∃ t, exec .encodeChannels State.reset = .next t ∧ t.result = 0#8 ∧
    t.txcnt = 22#16 ∧ (∀ j < 16, t.txf (5 + j) = 0x00#8) ∧ t.txf 21 = 0xD8#8 := by
  obtain ⟨t, ht, hregs, -, -, -, -, -, hpayload, -, -⟩ := encodeChannelsBuildsSetFrame.2 State.reset rfl
  refine ⟨t, ht, by rw [hregs], by rw [hregs], fun j hj => ?_,
    equalChannelsGiveChecksumD8 State.reset t 0x0000#16 rfl chIn_reset ht⟩
  obtain ⟨hlow, hhigh⟩ := hpayload ⟨j / 2, by omega⟩
  rw [chIn_reset] at hlow hhigh
  rcases Nat.mod_two_eq_zero_or_one j with hj2 | hj2
  · rw [show 5 + j = 5 + 2 * (j / 2) by omega]
    exact hlow
  · rw [show 5 + j = 6 + 2 * (j / 2) by omega]
    exact hhigh

/-- Nothing has been received after power-on, and every floor is above 0. -/
theorem received_reset_lt_floor {i : Instr} {f : Nat} (hf : floorOf i = some f) : received State.reset < f := by
  cases i with
  | decodeFrame | decodeAttitude | decodeChannels | checkReady => cases hf; decide
  | _ => cases hf

/-- Settles O8: the encodes by what they build (O18, O23, O25), the decodes by their floors (O26). -/
theorem operationsAreDefinedAfterPowerOn : Obligations.OperationsAreDefinedAfterPowerOn :=
  ⟨exec_encode_reset, exec_encodeChannels_reset, fun _ _ hf =>
    ⟨_, exec_decode_below_floor hf (received_reset_lt_floor hf), rfl, rfl, rfl, rfl⟩⟩

/-! ## Two bytes stored in either order -/

theorem Memory.write_comm {m : Memory} (hs : m.Pairwise (fun p q => p.1 < q.1)) {a b : Nat} (h : a ≠ b) (u v : Byte) :
    Memory.write (Memory.write m b v) a u = Memory.write (Memory.write m a u) b v := by
  refine Memory.eq_of_read_eq (Memory.rising_write (Memory.rising_write hs b v) a u)
    (Memory.rising_write (Memory.rising_write hs a u) b v) fun c => ?_
  by_cases ha : a = c
  · subst ha
    rw [Memory.read_write_same, Memory.read_write_other _ _ h.symm, Memory.read_write_same]
  · rw [Memory.read_write_other _ _ ha]
    by_cases hb : b = c
    · subst hb
      rw [Memory.read_write_same, Memory.read_write_same]
    · rw [Memory.read_write_other _ _ hb, Memory.read_write_other _ _ hb, Memory.read_write_other _ _ ha]

theorem setByte_comm (h : Half) {j k : Nat} (hj : j < 2) (hk : k < 2) (hjk : j ≠ k) (u v : Byte) :
    setByte (setByte h k v) j u = setByte (setByte h j u) k v := by
  obtain ⟨rfl, rfl⟩ | ⟨rfl, rfl⟩ : (j = 0 ∧ k = 1) ∨ (j = 1 ∧ k = 0) := by omega
  · rw [setByte_setByte_10, setByte_setByte_01]
  · rw [setByte_setByte_01, setByte_setByte_10]

/-- CH_IN with byte `k` of channel `i` replaced, as a host write replaces it (20_memory.md R64). -/
def setChannelByte (chs : Vector Half 8) (i : Fin 8) (k : Nat) (v : Byte) : Vector Half 8 :=
  chs.set i (setByte chs[i] k v)

/-- Other channels do not meet, and the two bytes of one channel commute. -/
theorem setChannelByte_comm (chs : Vector Half 8) {i i' : Fin 8} {j k : Nat} (hj : j < 2) (hk : k < 2)
    (h : 2 * i.val + j ≠ 2 * i'.val + k) (u v : Byte) :
    setChannelByte (setChannelByte chs i' k v) i j u = setChannelByte (setChannelByte chs i j u) i' k v := by
  unfold setChannelByte
  by_cases hi : i = i'
  · subst hi
    have hbytes := setByte_comm chs[i.val] hj hk (by omega) u v
    simp [hbytes]
  · have hne : i.val ≠ i'.val := fun he => hi (Fin.ext he)
    simpa [hne, hne.symm] using Vector.set_comm _ _ hne.symm

/-! ## The stores of an idle block (20_memory.md R64, R65) -/

/-- What a host write of `v` at `off`, not CMD's, does to every idle block. -/
inductive IdleStore (off : Offset) (v : Byte) : (State → State) → Prop where
  | buffer (h : hostBuffer off.toNat) : IdleStore off v (putBytes off.toNat [v])
  | status (h : off.toNat = 0x101) :
      IdleStore off v fun s => { s with overrun := if v.getLsbD 1 = true then false else s.overrun }
  | code (k : Nat) (hk : k < 2) (h : off.toNat = 0x104 + k) :
      IdleStore off v fun s => { s with code := setByte s.code k v }
  | len (h : off.toNat = 0x106) : IdleStore off v fun s => { s with len := v }
  | chCount (h : off.toNat = 0x107) : IdleStore off v fun s => { s with chCount := v }
  | rxcnt (k : Nat) (hk : k < 2) (h : off.toNat = 0x108 + k) :
      IdleStore off v fun s => { s with rxcnt := setByte s.rxcnt k v }
  | chIn (i : Fin 8) (k : Nat) (hk : k < 2) (h : off.toNat = 0x120 + 2 * i.val + k) :
      IdleStore off v fun s => { s with chIn := setChannelByte s.chIn i k v }
  | ignored : IdleStore off v id

/-- The spec lemma of a host write to an idle block: one store, the same for every idle state. -/
theorem exec_wr8_idleStore {off : Offset} (v : Byte) (hoff : off.toNat ≠ 0x100) :
    ∃ f, IdleStore off v f ∧ ∀ s : State, s.busy = false → exec (.wr8 off v) s = .next (f s) := by
  have hat := locate_at off
  cases hl : locate off with
  | txp i | rxb i =>
    rw [hl] at hat
    have hbuf : hostBuffer off.toNat := by
      obtain ⟨h1, h2⟩ := hat
      unfold hostBuffer
      omega
    exact ⟨_, .buffer hbuf, fun s hb => exec_wr8_buffer hb hbuf v⟩
  | txf i | rxp i | reserved => exact ⟨id, .ignored, fun s _ => by rw [exec_wr8, memWrite, hl]; rfl⟩
  | reg r k =>
    rw [hl] at hat
    obtain ⟨h, hk⟩ : off.toNat = regOffset r + k ∧ k < regBytes r := hat
    have hexec : ∀ s, exec (.wr8 off v) s = .next (writeReg s r k v) := fun s => by
      rw [exec_wr8, memWrite_reg hl]
    have hsingle : regBytes r = 1 → off.toNat = regOffset r := fun h1 => by omega
    cases r with
    | cmd => exact absurd (hsingle rfl) hoff
    | status => exact ⟨_, .status (hsingle rfl), fun s _ => congrArg Host.Outcome.next (memWrite_status (hsingle rfl) v s)⟩
    | code => exact ⟨_, .code k hk h, fun s hb => exec_wr8_reg hb .code k h hk rfl⟩
    | len => exact ⟨_, .len (hsingle rfl), fun s hb => exec_wr8_reg hb .len k h hk rfl⟩
    | chCount => exact ⟨_, .chCount (hsingle rfl), fun s hb => exec_wr8_reg hb .chCount k h hk rfl⟩
    | rxcnt => exact ⟨_, .rxcnt k hk h, fun s hb => exec_wr8_reg hb .rxcnt k h hk rfl⟩
    | chIn i => exact ⟨_, .chIn i k hk h, fun s hb => exec_wr8_reg hb (.chIn i) k h hk rfl⟩
    | _ => exact ⟨id, .ignored, fun s _ => hexec s⟩

theorem busy_idleStore {off : Offset} {v : Byte} {f : State → State} (hf : IdleStore off v f) (s : State) :
    (f s).busy = s.busy := by cases hf <;> rfl

/-- Stores at different offsets commute: they reach different components of the state, or different bytes of one. -/
theorem idleStore_comm {off off' : Offset} {v v' : Byte} {f g : State → State} (hf : IdleStore off v f)
    (hg : IdleStore off' v' g) (hne : off.toNat ≠ off'.toNat) {s : State} (hs : Memory.wf s.mem) : f (g s) = g (f s) := by
  cases hf with
  | ignored => rfl
  | buffer =>
    cases hg with
    | buffer => exact congrArg (fun m => { s with mem := m }) (Memory.write_comm hs.1 hne v v')
    | _ => rfl
  | status h =>
    cases hg with
    | status h' => omega
    | _ => rfl
  | code j hj h =>
    cases hg with
    | code k hk h' =>
      exact congrArg (fun c => { s with code := c }) (setByte_comm s.code hj hk (by omega) v v')
    | _ => rfl
  | len h =>
    cases hg with
    | len h' => omega
    | _ => rfl
  | chCount h =>
    cases hg with
    | chCount h' => omega
    | _ => rfl
  | rxcnt j hj h =>
    cases hg with
    | rxcnt k hk h' =>
      exact congrArg (fun c => { s with rxcnt := c }) (setByte_comm s.rxcnt hj hk (by omega) v v')
    | _ => rfl
  | chIn i j hj h =>
    cases hg with
    | chIn i' k hk h' =>
      have hbytes := setChannelByte_comm s.chIn (i := i) (i' := i') hj hk (by omega) v v'
      exact congrArg (fun chs => { s with chIn := chs }) hbytes
    | _ => rfl

/-- Settles O41: both writes are stores, each leaves the block idle for the other, and the stores commute. -/
theorem operandWritesCommute : Obligations.OperandWritesCommute := by
  intro s off off' v v' hs hb hne hoff hoff'
  obtain ⟨f, hf, hexec⟩ := exec_wr8_idleStore v hoff
  obtain ⟨g, hg, hexec'⟩ := exec_wr8_idleStore v' hoff'
  have hfb := (busy_idleStore hf s).trans hb
  have hgb := (busy_idleStore hg s).trans hb
  have hcomm := idleStore_comm hf hg (fun he => hne (BitVec.eq_of_toNat_eq he)) hs.1
  exact ⟨f s, g s, g (f s), hexec s hb, hexec' _ hfb, hexec' s hb, hcomm ▸ hexec _ hgb⟩

/-! ## The busy-write rule (70_reset_and_hazards.md R207) -/

/-- The host keeps the busy-write rule at every state of the run from `s`. -/
def KeepsRuleFrom (s : State) : Prop :=
  ∀ (j : Nat) (u : State) (x : Turn) (rest : List Turn), core.run j s = .next u → u.turns = x :: rest →
    keepsBusyRule u x = true

theorem keepsRuleFrom_step {s t : State} (h : KeepsRuleFrom s) (ht : step s = .next t) : KeepsRuleFrom t :=
  fun j u x rest hr => h (j + 1) u x rest ((run_succ j ht).trans hr)

/-- The rule forbids exactly the writes that a busy block would lose. -/
theorem not_keepsBusyRule_lost {s : State} {off : Offset} (v : Byte) (hb : s.busy = true) (hi : needsIdle off = true) :
    keepsBusyRule s (.host (encodeWr8 off v)) = false := by
  simp [keepsBusyRule, decodeBus21_encodeWr8, hb, hi]

/-- A step sets OVERRUN only by a write that the rule forbids. -/
theorem overrun_step_of_keepsRule {s t : State} (hrule : KeepsRuleFrom s) (h0 : s.overrun = false)
    (ht : step s = .next t) : t.overrun = false := by
  refine Bool.eq_false_iff.2 fun h1 => ?_
  obtain ⟨hb, off, v, ⟨rest, hn⟩, hi⟩ := (overrunSetAndClearedOnlyByHost s t ht).1 h0 h1
  have hkeeps := hrule 0 s _ rest (run_zero s) hn
  rw [not_keepsBusyRule_lost v hb hi] at hkeeps
  cases hkeeps

/-- Settles O50: every step of such a run keeps OVERRUN at 0 and leaves a run that keeps the rule. -/
theorem disciplinedHostNeverOverruns : Obligations.DisciplinedHostNeverOverruns := by
  intro ts k t hrule hr
  have hstep : ∀ s u : State, s.overrun = false ∧ KeepsRuleFrom s → step s = .next u →
      u.overrun = false ∧ KeepsRuleFrom u := fun s u ⟨h0, hs⟩ hu =>
    ⟨overrun_step_of_keepsRule hs h0 hu, keepsRuleFrom_step hs hu⟩
  exact (run_induction hstep k ⟨rfl, hrule⟩ hr).1

end Sys2Proof.Machine
end
